-- ==== Sys2Proof/Word.lean ====
section
/-! DEFINITION. The machine's words: 16-bit words, 8-bit bytes and bank values, 24-bit word addresses (00_scope.md R4, R5). -/

namespace Sys2Proof

/-- The 16-bit word: the unit of memory, of instructions and of registers (R5). -/
abbrev Word := BitVec 16

/-- An 8-bit value: a bank register, an immediate or a branch offset (R27, R28, R66, R69). -/
abbrev Byte := BitVec 8

/-- A 24-bit address, which names one 16-bit word of memory (R30, R40). -/
abbrev Addr := BitVec 24

end Sys2Proof
end

