-- ==== Sys2Proof/Config.lean ====
section
/-! DEFINITION. The named parameters of the model (00_scope.md R6, 92_eei_decisions.md): the OPEN ones as the arguments a machine takes, with the spec's defaults, those the spec decides at its decision, and the one free value, which has no body. -/

namespace Sys2Proof

/-- The spec's default of the OPEN parameter RESET_PC (R221, D5). DESIGN CHOICE, unsafe: log 4. -/
def Config.resetPc : Word := 0x0000#16

/-- The spec's default of the OPEN parameter RESET_IB (R221, D5). DESIGN CHOICE, unsafe: log 4. -/
def Config.resetIb : Byte := 0x00#8

/-- The value `State.reset` gives `DB`, for which the spec gives none (R221, D6). DESIGN CHOICE, unsafe: log 3. -/
def Config.resetDb : Byte := 0x00#8

/-- The value `State.reset` gives each of R0 to R7, for which the spec gives none (R221, D6). DESIGN CHOICE, unsafe: log 3. -/
def Config.resetReg : Word := 0x0000#16

/-- What a word of memory reads as that is not listed in `State.mem`: the one place where InitialMemory
is fixed for `State.reset` (D8, U9). DESIGN CHOICE, unsafe: log 2. -/
def Config.unlistedWord : Word := 0x0000#16

/-- MOVIB_PATTERN: bits [10:0] of the `movib` pattern `00ccc00000110000` (R119, C1, D1), a field of its own
so that a corrected source can replace it. DEDUCED, unsafe: log 5. -/
def Config.movibLow : BitVec 11 := 0b00000110000#11

/-- MOVIB_HIGH_BYTE: the n-th draw of bits [15:8] of the register that `movib` writes (R119, D4, U3).
A free value: it has no body, so nothing proved rests on what it is. DESIGN CHOICE, safe: log 6. -/
opaque Config.movibHighByte : Nat → Byte

/-- What MemMap says of an address (20_memory.md R49, D8). -/
inductive RegionKind where
  /-- Plain read-write storage. -/
  | storage
  /-- Storage that admits no write. -/
  | readOnly
  /-- A device, whose behaviour is outside the spec (R48): it admits no access. -/
  | device
  /-- Not populated: it admits no access. -/
  | absent
deriving DecidableEq, Repr

/-- One region of MemMap: `size` words from the word address `base` up. -/
structure Region where
  base : Nat
  size : Nat
  kind : RegionKind
deriving DecidableEq, Repr

/-- The spec's default of the OPEN parameter MemMap: all 2^24 words are plain read-write storage (R49, D8).
DESIGN CHOICE, unsafe where a platform has holes, ROM or devices: log 9. -/
def Config.memMap : List Region := [⟨0, 16777216, .storage⟩]

/-- The OPEN parameters that a model takes as arguments (R6), but for InitialMemory, which is the contents of
`State.mem`. A state carries them (`State.platform`), so a statement about every state holds for every
value of them. Log 19. -/
structure Platform where
  /-- MemMap: which of the 2^24 addresses hold what (R49, D8). -/
  memMap : List Region
  /-- RESET_PC (R221, D5). -/
  resetPc : Word
  /-- RESET_IB (R221, D5). -/
  resetIb : Byte
deriving DecidableEq, Repr

/-- The OPEN parameters at the spec's defaults (R6): the platform of `State.reset`. Log 4, log 9, log 19. -/
def Config.platform : Platform where
  memMap := Config.memMap
  resetPc := Config.resetPc
  resetIb := Config.resetIb

end Sys2Proof
end

