-- ==== Sys2Proof/Syntax.lean ====
section
/-! DEFINITION. The instructions: one constructor for each of the 35 rows of spec/opcode_table.json, named by the row's id (30_encoding.md R72 to R75). -/

namespace Sys2Proof

/-- A general register R0 to R7, by its number (R20). -/
abbrev Reg := Fin 8

/-- One constructor per row of the opcode table, in the table's order. The two-operand forms of `add` to
`asr` and the one-operand form of `swhl` are the same constructors with the registers equal (R80). -/
inductive Instr where
  /-- `nop`, the word of `mov r0,r0` (R126, R76). -/
  | nop
  /-- `mov Rc,Rb` (R110). -/
  | mov (c b : Reg)
  /-- `add Rc,Ra,Rb` (R111). -/
  | add (c a b : Reg)
  /-- `sub Rc,Ra,Rb` (R112). -/
  | sub (c a b : Reg)
  /-- `and Rc,Ra,Rb` (R113). -/
  | and (c a b : Reg)
  /-- `or Rc,Ra,Rb` (R114, C7). -/
  | or (c a b : Reg)
  /-- `xor Rc,Ra,Rb` (R115, C13). -/
  | xor (c a b : Reg)
  /-- `lsl Rc,Ra,Rb` (R116). -/
  | lsl (c a b : Reg)
  /-- `asr Rc,Ra,Rb` (R117). -/
  | asr (c a b : Reg)
  /-- `movpc Rc` (R118). -/
  | movpc (c : Reg)
  /-- `movib Rc` (R119, D1). -/
  | movib (c : Reg)
  /-- `mov Rd,(Rb)` (R120). -/
  | ld (d b : Reg)
  /-- `mov Rd,(Ra + Rb)` (R121). -/
  | ldadd (d a b : Reg)
  /-- `mov Rd,(Ra - Rb)` (R122). -/
  | ldsub (d a b : Reg)
  /-- `mov (Rb),Rs`, the source register first (R123). -/
  | st (src b : Reg)
  /-- `mov (Ra + Rb),Rs`, the source register first (R124). -/
  | stadd (src a b : Reg)
  /-- `mov (Ra - Rb),Rs`, the source register first (R125). -/
  | stsub (src a b : Reg)
  /-- `movi Rn,#` (R141). -/
  | movi (n : Reg) (imm : Byte)
  /-- `addi Rn,#` (R142). -/
  | addi (n : Reg) (imm : Byte)
  /-- `subi Rn,#` (R143). -/
  | subi (n : Reg) (imm : Byte)
  /-- `andi Rn,#` (R144). -/
  | andi (n : Reg) (imm : Byte)
  /-- `ori Rn,#` (R145, C7). -/
  | ori (n : Reg) (imm : Byte)
  /-- `xori Rn,#` (R146). -/
  | xori (n : Reg) (imm : Byte)
  /-- `lsli Rn,£` with the 3-bit field `sss`, in which 000 means 8 (R147, R67). -/
  | lsli (n : Reg) (sss : BitVec 3)
  /-- `asri Rn,£` with the 3-bit field `sss`, in which 000 means 8 (R148, R67). -/
  | asri (n : Reg) (sss : BitVec 3)
  /-- `jump Rb,Ra`, the bank register first, as the assembler writes it (R160, R68). -/
  | jump (b a : Reg)
  /-- `bz Rd,label` (R162). -/
  | bz (r : Reg) (off : Byte)
  /-- `bnz Rd,label` (R163). -/
  | bnz (r : Reg) (off : Byte)
  /-- `bpl Rd,label` (R164). -/
  | bpl (r : Reg) (off : Byte)
  /-- `bmi Rd,label` (R165). -/
  | bmi (r : Reg) (off : Byte)
  /-- `bra label` (R166). -/
  | bra (off : Byte)
  /-- `banki #` (R180). -/
  | banki (imm : Byte)
  /-- `bank Rb` (R181). -/
  | bank (b : Reg)
  /-- `swhl Rd,Rb` (R182). -/
  | swhl (d b : Reg)
  /-- `halt` (R183). -/
  | halt
deriving DecidableEq, Repr

end Sys2Proof
end

