-- ==== Sys2Proof/WellFormed.lean ====
section
/-! DEFINITION. Which terms of Instr the decoder can answer. Every field of every constructor holds exactly the values its bits can hold, so one check is left: the word 0x0000 is `nop`, not `mov r0,r0` (30_encoding.md R76). -/

namespace Sys2Proof

/-- `mov r0,r0` has the word 0x0000, which the decoder reports as `nop`: "a decoder that must return one
row per word tests the `nop` row first" (R76). DEDUCED, safe: log 15. -/
def Instr.wellFormed : Instr → Bool
  | .mov c b => !(c == 0 && b == 0)
  | .nop | .add .. | .sub .. | .and .. | .or .. | .xor .. | .lsl .. | .asr .. => true
  | .movpc .. | .movib .. => true
  | .ld .. | .ldadd .. | .ldsub .. | .st .. | .stadd .. | .stsub .. => true
  | .movi .. | .addi .. | .subi .. | .andi .. | .ori .. | .xori .. | .lsli .. | .asri .. => true
  | .jump .. | .bz .. | .bnz .. | .bpl .. | .bmi .. | .bra .. => true
  | .banki .. | .bank .. | .swhl .. | .halt => true

end Sys2Proof
end

