-- ==== Sys2Proof/Decode.lean ====
section
/-! DEFINITION. The decoder, total on the 65,536 words, which names why it rejects a word; the encoder; the opcode table's masks (30_encoding.md R60 to R78). Every instruction is one word, so the decoder takes one word (R60). -/

namespace Sys2Proof

/-- Why a word is undefined: one name for each case of the list of R78. -/
inductive Undefined where
  /-- Type 0: `mov`, `mov Rd,(Rb)` or `mov (Rb),Rs` with `aaa` not 000. -/
  | fieldASet
  /-- Type 0: a memory read whose address operation is not B, SUM or DIFF. -/
  | readOperation
  /-- Type 0: a memory write whose address operation is not B, SUM or DIFF. -/
  | writeOperation
  /-- Type 0, bits [4:0] = 10000: bits [10:5] are neither those of `movpc` nor those of `movib`. -/
  | moveFields
  /-- Type 0: bits [4:0] = 10001 to 10111. -/
  | moveOperation
  /-- Type 1: `lsli` or `asri` with any of bits [10:6] set. -/
  | shiftAmountHigh
  /-- Type 2: bits [2:0] = 001 or 010. -/
  | type2Operation
  /-- Type 2: `jump` with any of bits [13:11] or [4:3] set. -/
  | jumpFields
  /-- Type 2: `bra` with any of bits [13:11] set. -/
  | braFields
  /-- Type 3: bits [2:0] = 000, 100, 101 or 110. -/
  | type3Operation
  /-- Type 3: `banki` with any of bits [13:11] set. -/
  | bankiFields
  /-- Type 3: `bank` with any of bits [13:8] or [4:3] set. -/
  | bankFields
  /-- Type 3: `swhl` with any of bits [10:8] or [4:3] set. -/
  | swhlFields
  /-- Type 3: `halt` with any of bits [13:3] set. -/
  | haltFields
deriving DecidableEq, Repr

/-- A value of a two-bit field, by its bits: the type [15:14] (R61) and the Type 0 mode [4:3] (R64). -/
inductive Sel2 where
  | s00 | s01 | s10 | s11
deriving DecidableEq, Repr

/-- A value of the three-bit operation field [2:0], by its bits (R63). -/
inductive Sel3 where
  | s000 | s001 | s010 | s011 | s100 | s101 | s110 | s111
deriving DecidableEq, Repr

/-- The two bits as a selector. -/
def sel2 (v : BitVec 2) : Sel2 :=
  if v = 0b00#2 then .s00 else if v = 0b01#2 then .s01 else if v = 0b10#2 then .s10 else .s11

/-- The three bits as a selector. -/
def sel3 (v : BitVec 3) : Sel3 :=
  if v = 0b000#3 then .s000 else if v = 0b001#3 then .s001 else
  if v = 0b010#3 then .s010 else if v = 0b011#3 then .s011 else
  if v = 0b100#3 then .s100 else if v = 0b101#3 then .s101 else
  if v = 0b110#3 then .s110 else .s111

/-- The register a 3-bit field names (R20). -/
def regOfBits (v : BitVec 3) : Reg := v.toFin

/-- The 3-bit field that names a register (R20). -/
def bitsOfReg (r : Reg) : BitVec 3 := BitVec.ofFin r

/-- Bits [15:14], the type (R61). -/
def typeField (w : Word) : BitVec 2 := w.extractLsb' 14 2

/-- Bits [13:11]: `ccc`, `ddd`, `sss` of a store, or `rrr` (R62, R65, R69). -/
def cField (w : Word) : BitVec 3 := w.extractLsb' 11 3

/-- Bits [10:8], `aaa` (R62). -/
def aField (w : Word) : BitVec 3 := w.extractLsb' 8 3

/-- Bits [7:5], `bbb` (R62). -/
def bField (w : Word) : BitVec 3 := w.extractLsb' 5 3

/-- Bits [4:3], the Type 0 mode (R64). -/
def modeField (w : Word) : BitVec 2 := w.extractLsb' 3 2

/-- Bits [2:0], the low three bits of the ALU code (R63). -/
def opField (w : Word) : BitVec 3 := w.extractLsb' 0 3

/-- Bits [10:3]: `imm8` or `off8` (R66, R69, R71). -/
def immField (w : Word) : Byte := w.extractLsb' 3 8

/-- Bits [5:3], the shift amount of `lsli` and `asri` (R67). -/
def shiftField (w : Word) : BitVec 3 := w.extractLsb' 3 3

/-- Bits [10:6], printed as zero in `lsli` and `asri` (R67). -/
def shiftHighField (w : Word) : BitVec 5 := w.extractLsb' 6 5

/-- Bits [10:0], fixed in `movpc` and `movib` (R72). -/
def moveField (w : Word) : BitVec 11 := w.extractLsb' 0 11

/-- Bits [10:0] of `movpc`, `00ccc00000010000` (R118). -/
def movpcLow : BitVec 11 := 0b00000010000#11

/-- Mode 00: a register operation (R72). -/
def decodeRegOp (w : Word) : Except Undefined Instr :=
  let c := regOfBits (cField w)
  let a := regOfBits (aField w)
  let b := regOfBits (bField w)
  match sel3 (opField w) with
  | .s000 =>
    if w = 0x0000#16 then .ok .nop
    else if aField w = 0b000#3 then .ok (.mov c b) else .error .fieldASet
  | .s001 => .ok (.add c a b)
  | .s010 => .ok (.sub c a b)
  | .s011 => .ok (.and c a b)
  | .s100 => .ok (.or c a b)
  | .s101 => .ok (.xor c a b)
  | .s110 => .ok (.lsl c a b)
  | .s111 => .ok (.asr c a b)

/-- Mode 01: a memory read (R72). -/
def decodeRead (w : Word) : Except Undefined Instr :=
  let d := regOfBits (cField w)
  let a := regOfBits (aField w)
  let b := regOfBits (bField w)
  match sel3 (opField w) with
  | .s000 => if aField w = 0b000#3 then .ok (.ld d b) else .error .fieldASet
  | .s001 => .ok (.ldadd d a b)
  | .s010 => .ok (.ldsub d a b)
  | .s011 | .s100 | .s101 | .s110 | .s111 => .error .readOperation

/-- Mode 10: a move from `PC`; the move from `IB` is recognised before it (R72). -/
def decodeMove (w : Word) : Except Undefined Instr :=
  match sel3 (opField w) with
  | .s000 =>
    if moveField w = movpcLow then .ok (.movpc (regOfBits (cField w))) else .error .moveFields
  | .s001 | .s010 | .s011 | .s100 | .s101 | .s110 | .s111 => .error .moveOperation

/-- Mode 11: a memory write (R72). -/
def decodeWrite (w : Word) : Except Undefined Instr :=
  let src := regOfBits (cField w)
  let a := regOfBits (aField w)
  let b := regOfBits (bField w)
  match sel3 (opField w) with
  | .s000 => if aField w = 0b000#3 then .ok (.st src b) else .error .fieldASet
  | .s001 => .ok (.stadd src a b)
  | .s010 => .ok (.stsub src a b)
  | .s011 | .s100 | .s101 | .s110 | .s111 => .error .writeOperation

/-- Type 0, Register / Memory (R72). `movib` is looked for first, by the configured pattern (D1). -/
def decodeType0 (w : Word) : Except Undefined Instr :=
  if moveField w = Config.movibLow then .ok (.movib (regOfBits (cField w)))
  else match sel2 (modeField w) with
    | .s00 => decodeRegOp w
    | .s01 => decodeRead w
    | .s10 => decodeMove w
    | .s11 => decodeWrite w

/-- Type 1, Immediate (R73). -/
def decodeType1 (w : Word) : Except Undefined Instr :=
  let n := regOfBits (cField w)
  let imm := immField w
  match sel3 (opField w) with
  | .s000 => .ok (.movi n imm)
  | .s001 => .ok (.addi n imm)
  | .s010 => .ok (.subi n imm)
  | .s011 => .ok (.andi n imm)
  | .s100 => .ok (.ori n imm)
  | .s101 => .ok (.xori n imm)
  | .s110 =>
    if shiftHighField w = 0b00000#5 then .ok (.lsli n (shiftField w)) else .error .shiftAmountHigh
  | .s111 =>
    if shiftHighField w = 0b00000#5 then .ok (.asri n (shiftField w)) else .error .shiftAmountHigh

/-- Type 2, Jump / Branch (R74). -/
def decodeType2 (w : Word) : Except Undefined Instr :=
  let r := regOfBits (cField w)
  let off := immField w
  match sel3 (opField w) with
  | .s000 =>
    if cField w = 0b000#3 ∧ modeField w = 0b00#2
    then .ok (.jump (regOfBits (bField w)) (regOfBits (aField w))) else .error .jumpFields
  | .s001 | .s010 => .error .type2Operation
  | .s011 => .ok (.bz r off)
  | .s100 => .ok (.bnz r off)
  | .s101 => .ok (.bpl r off)
  | .s110 => .ok (.bmi r off)
  | .s111 => if cField w = 0b000#3 then .ok (.bra off) else .error .braFields

/-- Type 3, Miscellaneous (R75). -/
def decodeType3 (w : Word) : Except Undefined Instr :=
  match sel3 (opField w) with
  | .s001 => if cField w = 0b000#3 then .ok (.banki (immField w)) else .error .bankiFields
  | .s010 =>
    if cField w = 0b000#3 ∧ aField w = 0b000#3 ∧ modeField w = 0b00#2
    then .ok (.bank (regOfBits (bField w))) else .error .bankFields
  | .s011 =>
    if aField w = 0b000#3 ∧ modeField w = 0b00#2
    then .ok (.swhl (regOfBits (cField w)) (regOfBits (bField w))) else .error .swhlFields
  | .s111 => if w = 0xC007#16 then .ok .halt else .error .haltFields
  | .s000 | .s100 | .s101 | .s110 => .error .type3Operation

/-- The instruction a word is, or why the word is undefined (R61, R72 to R75, R78). -/
def decode (w : Word) : Except Undefined Instr :=
  match sel2 (typeField w) with
  | .s00 => decodeType0 w
  | .s01 => decodeType1 w
  | .s10 => decodeType2 w
  | .s11 => decodeType3 w

/-- A word with the register fields of R62, R68 and R70: type, C, A, B, and bits [4:0]. -/
def packRegs (ty : BitVec 2) (c a b : BitVec 3) (low : BitVec 5) : Word := ty ++ c ++ a ++ b ++ low

/-- A word with the 8-bit field of R65, R69 and R70: type, C, bits [10:3], and bits [2:0]. -/
def packImm (ty : BitVec 2) (c : BitVec 3) (imm : Byte) (op : BitVec 3) : Word := ty ++ c ++ imm ++ op

/-- A Type 0 word with fixed bits [10:0], `movpc` or `movib` (R72). -/
def packMove (c : BitVec 3) (low : BitVec 11) : Word := 0b00#2 ++ c ++ low

/-- The field [10:3] of `lsli` and `asri`: five zero bits, then the shift amount (R65, R67). -/
def shiftImm (sss : BitVec 3) : Byte := sss.setWidth 8

/-- The word of an instruction, the pattern of R72 to R75 with its fields filled in. -/
def encode : Instr → Word
  | .nop => 0b0000000000000000#16
  | .mov c b => packRegs 0b00#2 (bitsOfReg c) 0b000#3 (bitsOfReg b) 0b00000#5
  | .add c a b => packRegs 0b00#2 (bitsOfReg c) (bitsOfReg a) (bitsOfReg b) 0b00001#5
  | .sub c a b => packRegs 0b00#2 (bitsOfReg c) (bitsOfReg a) (bitsOfReg b) 0b00010#5
  | .and c a b => packRegs 0b00#2 (bitsOfReg c) (bitsOfReg a) (bitsOfReg b) 0b00011#5
  | .or c a b => packRegs 0b00#2 (bitsOfReg c) (bitsOfReg a) (bitsOfReg b) 0b00100#5
  | .xor c a b => packRegs 0b00#2 (bitsOfReg c) (bitsOfReg a) (bitsOfReg b) 0b00101#5
  | .lsl c a b => packRegs 0b00#2 (bitsOfReg c) (bitsOfReg a) (bitsOfReg b) 0b00110#5
  | .asr c a b => packRegs 0b00#2 (bitsOfReg c) (bitsOfReg a) (bitsOfReg b) 0b00111#5
  | .movpc c => packMove (bitsOfReg c) movpcLow
  | .movib c => packMove (bitsOfReg c) Config.movibLow
  | .ld d b => packRegs 0b00#2 (bitsOfReg d) 0b000#3 (bitsOfReg b) 0b01000#5
  | .ldadd d a b => packRegs 0b00#2 (bitsOfReg d) (bitsOfReg a) (bitsOfReg b) 0b01001#5
  | .ldsub d a b => packRegs 0b00#2 (bitsOfReg d) (bitsOfReg a) (bitsOfReg b) 0b01010#5
  | .st src b => packRegs 0b00#2 (bitsOfReg src) 0b000#3 (bitsOfReg b) 0b11000#5
  | .stadd src a b => packRegs 0b00#2 (bitsOfReg src) (bitsOfReg a) (bitsOfReg b) 0b11001#5
  | .stsub src a b => packRegs 0b00#2 (bitsOfReg src) (bitsOfReg a) (bitsOfReg b) 0b11010#5
  | .movi n imm => packImm 0b01#2 (bitsOfReg n) imm 0b000#3
  | .addi n imm => packImm 0b01#2 (bitsOfReg n) imm 0b001#3
  | .subi n imm => packImm 0b01#2 (bitsOfReg n) imm 0b010#3
  | .andi n imm => packImm 0b01#2 (bitsOfReg n) imm 0b011#3
  | .ori n imm => packImm 0b01#2 (bitsOfReg n) imm 0b100#3
  | .xori n imm => packImm 0b01#2 (bitsOfReg n) imm 0b101#3
  | .lsli n sss => packImm 0b01#2 (bitsOfReg n) (shiftImm sss) 0b110#3
  | .asri n sss => packImm 0b01#2 (bitsOfReg n) (shiftImm sss) 0b111#3
  | .jump b a => packRegs 0b10#2 0b000#3 (bitsOfReg a) (bitsOfReg b) 0b00000#5
  | .bz r off => packImm 0b10#2 (bitsOfReg r) off 0b011#3
  | .bnz r off => packImm 0b10#2 (bitsOfReg r) off 0b100#3
  | .bpl r off => packImm 0b10#2 (bitsOfReg r) off 0b101#3
  | .bmi r off => packImm 0b10#2 (bitsOfReg r) off 0b110#3
  | .bra off => packImm 0b10#2 0b000#3 off 0b111#3
  | .banki imm => packImm 0b11#2 0b000#3 imm 0b001#3
  | .bank b => packRegs 0b11#2 0b000#3 0b000#3 (bitsOfReg b) 0b00010#5
  | .swhl d b => packRegs 0b11#2 (bitsOfReg d) 0b000#3 (bitsOfReg b) 0b00011#5
  | .halt => 0b1100000000000111#16

/-- A row of the opcode table: a word `w` is the row's instruction when `w & mask = pattern` (30_encoding.md
section 7). -/
structure Row where
  mask : Word
  pattern : Word
deriving DecidableEq, Repr

/-- The word is of the row. -/
def Row.fits (r : Row) (w : Word) : Bool := w &&& r.mask == r.pattern

/-- The Type 0 map, `nop` first (R72, R76). -/
def type0Rows : List Row :=
  [⟨0xFFFF, 0x0000⟩, ⟨0xC71F, 0x0000⟩, ⟨0xC01F, 0x0001⟩, ⟨0xC01F, 0x0002⟩, ⟨0xC01F, 0x0003⟩,
   ⟨0xC01F, 0x0004⟩, ⟨0xC01F, 0x0005⟩, ⟨0xC01F, 0x0006⟩, ⟨0xC01F, 0x0007⟩, ⟨0xC7FF, 0x0010⟩,
   ⟨0xC7FF, 0x0030⟩, ⟨0xC71F, 0x0008⟩, ⟨0xC01F, 0x0009⟩, ⟨0xC01F, 0x000A⟩, ⟨0xC71F, 0x0018⟩,
   ⟨0xC01F, 0x0019⟩, ⟨0xC01F, 0x001A⟩]

/-- The Type 1 map (R73). -/
def type1Rows : List Row :=
  [⟨0xC007, 0x4000⟩, ⟨0xC007, 0x4001⟩, ⟨0xC007, 0x4002⟩, ⟨0xC007, 0x4003⟩, ⟨0xC007, 0x4004⟩,
   ⟨0xC007, 0x4005⟩, ⟨0xC7C7, 0x4006⟩, ⟨0xC7C7, 0x4007⟩]

/-- The Type 2 map (R74). -/
def type2Rows : List Row :=
  [⟨0xF81F, 0x8000⟩, ⟨0xC007, 0x8003⟩, ⟨0xC007, 0x8004⟩, ⟨0xC007, 0x8005⟩, ⟨0xC007, 0x8006⟩,
   ⟨0xF807, 0x8007⟩]

/-- The Type 3 map (R75). -/
def type3Rows : List Row :=
  [⟨0xF807, 0xC001⟩, ⟨0xFF1F, 0xC002⟩, ⟨0xC71F, 0xC003⟩, ⟨0xFFFF, 0xC007⟩]

/-- The 35 rows of the opcode table (R72 to R75). -/
def opcodeRows : List Row := type0Rows ++ type1Rows ++ type2Rows ++ type3Rows

/-- The opcode-table row of an instruction (R72 to R75). -/
def rowOf : Instr → Row
  | .nop => ⟨0xFFFF, 0x0000⟩
  | .mov .. => ⟨0xC71F, 0x0000⟩
  | .add .. => ⟨0xC01F, 0x0001⟩
  | .sub .. => ⟨0xC01F, 0x0002⟩
  | .and .. => ⟨0xC01F, 0x0003⟩
  | .or .. => ⟨0xC01F, 0x0004⟩
  | .xor .. => ⟨0xC01F, 0x0005⟩
  | .lsl .. => ⟨0xC01F, 0x0006⟩
  | .asr .. => ⟨0xC01F, 0x0007⟩
  | .movpc .. => ⟨0xC7FF, 0x0010⟩
  | .movib .. => ⟨0xC7FF, 0x0030⟩
  | .ld .. => ⟨0xC71F, 0x0008⟩
  | .ldadd .. => ⟨0xC01F, 0x0009⟩
  | .ldsub .. => ⟨0xC01F, 0x000A⟩
  | .st .. => ⟨0xC71F, 0x0018⟩
  | .stadd .. => ⟨0xC01F, 0x0019⟩
  | .stsub .. => ⟨0xC01F, 0x001A⟩
  | .movi .. => ⟨0xC007, 0x4000⟩
  | .addi .. => ⟨0xC007, 0x4001⟩
  | .subi .. => ⟨0xC007, 0x4002⟩
  | .andi .. => ⟨0xC007, 0x4003⟩
  | .ori .. => ⟨0xC007, 0x4004⟩
  | .xori .. => ⟨0xC007, 0x4005⟩
  | .lsli .. => ⟨0xC7C7, 0x4006⟩
  | .asri .. => ⟨0xC7C7, 0x4007⟩
  | .jump .. => ⟨0xF81F, 0x8000⟩
  | .bz .. => ⟨0xC007, 0x8003⟩
  | .bnz .. => ⟨0xC007, 0x8004⟩
  | .bpl .. => ⟨0xC007, 0x8005⟩
  | .bmi .. => ⟨0xC007, 0x8006⟩
  | .bra .. => ⟨0xF807, 0x8007⟩
  | .banki .. => ⟨0xF807, 0xC001⟩
  | .bank .. => ⟨0xFF1F, 0xC002⟩
  | .swhl .. => ⟨0xC71F, 0xC003⟩
  | .halt => ⟨0xFFFF, 0xC007⟩

/-- The 4-bit ALU code an instruction word presents: `w[15] : w[2:0]` (R63). -/
def aluCode (w : Word) : BitVec 4 := w.extractLsb' 15 1 ++ opField w

/-- The instruction the decoder reads from a word numbered as the opcode table numbers it, the bits above
`nbits` being 0. An instruction is one word (R60), so there is nothing above bit 15. -/
def decodeTableWord (nbits w : Nat) : Option Instr :=
  match decode (BitVec.ofNat 16 (w % 2 ^ nbits)) with
  | .ok i => some i
  | .error _ => none

end Sys2Proof
end

