-- ==== Sys2Proof/Machine/State.lean ====
section
/-! DEFINITION. The machine's state, all the spec gives it (10_state.md), the reasons a step can stop, and the state after reset (70_reset_and_hazards.md R221). -/

namespace Sys2Proof.Machine

open Sys2Proof

/-- One listed word of memory: its word address and its contents. The unit an address names is the 16-bit
word, and there is no byte address (R40, R45, D7). DEDUCED, safe: log 1. -/
abbrev WordCell := Nat × Word

/-- Memory, as the list of its words that differ from `Config.unlistedWord`, addresses strictly rising;
the form is `Memory.wf` (Machine/Ops.lean). -/
abbrev Memory := List WordCell

/-- Which access reaches memory: the fetch (R41), a load (R43) or a store (R44). -/
inductive Access where
  | fetch
  | load
  | store
deriving DecidableEq, Repr

/-- Why the machine makes no step. -/
inductive Fault where
  /-- The CPU is halted and fetches nothing until it is reset (R31, R183, D15). Raised by `step` alone.
  Safe: no claim is made of a machine that does not run. Log 10. -/
  | halted
  /-- MemMap does not admit the access, so there is no step (R49, D8). Raised by a fetch, a load or a store
  outside what `State.platform` admits; never under the default map. Safe: the machine stops. Log 9. -/
  | notAdmitted (access : Access) (address : Addr)
deriving DecidableEq, Repr

/-- Why the model gives a step no meaning. -/
inductive Refusal where
  /-- The word is undefined, for the reason named (R78, D2). Raised by `step` alone. Safe: the spec itself
  refuses such a word, and the run with it. Log 8. -/
  | undefinedWord (reason : Undefined) (word : Word)
  /-- An instruction without a meaning. Raised by no arm: every instruction has its meaning. Safe. -/
  | notModelled (mnemonic : String)
deriving DecidableEq, Repr

/-- The state of the LEO-1: the tuple of 10_state.md and nothing else (R33), but for `draws` and
`platform`, which are the model's own. -/
structure State where
  /-- R0 to R7 (R20). -/
  regs : Vector Word 8
  /-- The Program Counter (R22). -/
  pc : Word
  /-- The Instruction Bank (R27). -/
  ib : Byte
  /-- The Data Bank, "the Bank register" (R28, C9). -/
  db : Byte
  /-- The halt latch (R31). -/
  halted : Bool
  /-- The 2^24 words of memory (R30, R40). -/
  mem : Memory
  /-- The model's own: how many draws of `Config.movibHighByte` have been taken (D4). Log 6. -/
  draws : Nat
  /-- The model's own: the OPEN parameters the machine was built with (R6), which no step changes. Log 19. -/
  platform : Platform
deriving DecidableEq, Repr

/-- What a step or a meaning answers. -/
abbrev Answer := Host.Outcome State Fault Refusal

/-- The reset state of R221 on a machine with the parameters `p`, for every InitialMemory and for every value
the registers and `DB` may come to hold, which the spec leaves unknown but definite (D6). -/
def State.resetOn (p : Platform) (regs : Vector Word 8) (db : Byte) (mem : Memory) : State where
  regs := regs
  pc := p.resetPc
  ib := p.resetIb
  db := db
  halted := false
  mem := mem
  draws := 0
  platform := p

/-- The machine right after reset (R221), with every OPEN parameter at the spec's default (log 4, log 9), the
registers and `DB` at the values Config names (log 3), no word of memory listed (log 2), and no draw
taken (log 6). -/
def State.reset : State :=
  State.resetOn Config.platform (Vector.replicate 8 Config.resetReg) Config.resetDb []

end Sys2Proof.Machine
end

