-- ==== Sys2Proof/Machine/Alu.lean ====
section
/-! DEFINITION. The ALU: its 4-bit codes, its operations and the shift amount (40_alu_operations.md R90 to R102). -/

namespace Sys2Proof.Machine

open Sys2Proof

/-- The twelve operations of the ALU table (R90), `B` under each of its four codes (R91, R100). -/
inductive AluOp where
  | b | sum | diff | and | or | xor | lsl | asr
  | bJump | bBanki | bBank | sb
deriving DecidableEq, Repr

/-- The operation of a 4-bit code; codes 1100 to 1111 have none (R90, R102). Log 16. -/
def aluOpOfCode (code : BitVec 4) : Option AluOp :=
  match code.toNat with
  | 0b0000 => some .b
  | 0b0001 => some .sum
  | 0b0010 => some .diff
  | 0b0011 => some .and
  | 0b0100 => some .or
  | 0b0101 => some .xor
  | 0b0110 => some .lsl
  | 0b0111 => some .asr
  | 0b1000 => some .bJump
  | 0b1001 => some .bBanki
  | 0b1010 => some .bBank
  | 0b1011 => some .sb
  | _ => none

/-- The number of bits LSL and ASR shift by: the low three bits of B, where 0 means 8 (R97, C11). -/
def shiftAmount (y : Word) : Nat :=
  let n := (y.extractLsb' 0 3).toNat
  if n = 0 then 8 else n

/-- SB: the low byte becomes the high byte and the high byte the low byte (R101). -/
def swapBytes (y : Word) : Word := y.extractLsb' 0 8 ++ y.extractLsb' 8 8

/-- `ALU(code, A, B)` (R90 to R101). SUM and DIFF wrap and ASR fills with the sign: log 14. -/
def alu : AluOp → Word → Word → Word
  | .b, _, y => y
  | .sum, x, y => x + y
  | .diff, x, y => x - y
  | .and, x, y => x &&& y
  | .or, x, y => x ||| y
  | .xor, x, y => x ^^^ y
  | .lsl, x, y => x <<< shiftAmount y
  | .asr, x, y => x.sshiftRight (shiftAmount y)
  | .bJump, _, y => y
  | .bBanki, _, y => y
  | .bBank, _, y => y
  | .sb, _, y => swapBytes y

/-- What the rules of the instructions pass for an A operand they write as `-`: the operation ignores it. -/
def noOperand : Word := 0x0000#16

/-- The ALU operation the rule of an instruction uses, if it uses the ALU's output (R63, R102). -/
def aluOpOf : Instr → Option AluOp
  | .nop | .mov .. | .ld .. | .st .. | .movi .. => some .b
  | .add .. | .ldadd .. | .stadd .. | .addi .. => some .sum
  | .sub .. | .ldsub .. | .stsub .. | .subi .. => some .diff
  | .and .. | .andi .. => some .and
  | .or .. | .ori .. => some .or
  | .xor .. | .xori .. => some .xor
  | .lsl .. | .lsli .. => some .lsl
  | .asr .. | .asri .. => some .asr
  | .jump .. => some .bJump
  | .banki .. => some .bBanki
  | .bank .. => some .bBank
  | .swhl .. => some .sb
  | .movpc .. | .movib .. | .bz .. | .bnz .. | .bpl .. | .bmi .. | .bra .. | .halt => none

end Sys2Proof.Machine
end

