-- ==== Sys2Proof/Machine/Ops.lean ====
section
/-! DEFINITION. The named operations over memory, registers and the program counter (10_state.md, 20_memory.md). There is no exception to take and none to return from (60_exceptions.md R200 to R203). -/

namespace Sys2Proof.Machine

open Sys2Proof

/-- The word at a key: the first listed, else what an unlisted word reads as. -/
def Memory.readKey : Memory → Nat → Word
  | [], _ => Config.unlistedWord
  | (k, v) :: rest, key => if k = key then v else Memory.readKey rest key

/-- The list without its entries at a key. -/
def Memory.erase : Memory → Nat → Memory
  | [], _ => []
  | (k, v) :: rest, key =>
    if k = key then Memory.erase rest key else (k, v) :: Memory.erase rest key

/-- The list with one more entry, before the first greater key. -/
def Memory.insert : Memory → Nat → Word → Memory
  | [], key, v => [(key, v)]
  | (k, w) :: rest, key, v =>
    if key < k then (key, v) :: (k, w) :: rest else (k, w) :: Memory.insert rest key v

/-- `Mem[addr]` (R43). -/
def Memory.read (m : Memory) (a : Addr) : Word := m.readKey a.toNat

/-- Memory after `Mem[addr] <- v` (R44), in the canonical form: the value an unlisted word reads as is not
listed. -/
def Memory.write (m : Memory) (a : Addr) (v : Word) : Memory :=
  if v = Config.unlistedWord then m.erase a.toNat else (m.erase a.toNat).insert a.toNat v

/-- From `least` up: keys strictly rising and below 2^24, no entry equal to what an unlisted word reads as. -/
def Memory.wfFrom : Nat → Memory → Bool
  | _, [] => true
  | least, (k, v) :: rest =>
    decide (least ≤ k) && decide (k < 16777216) && v != Config.unlistedWord
      && Memory.wfFrom (k + 1) rest

/-- The canonical form of memory, in which equal memories are equal lists. -/
def Memory.wf (m : Memory) : Bool := m.wfFrom 0

/-- `R[r]` (R20). -/
def State.reg (s : State) (r : Reg) : Word := s.regs.get r

/-- `R[r] <- v` (R20); every register holds what is written to it (R21). -/
def State.setReg (s : State) (r : Reg) (v : Word) : State := { s with regs := s.regs.set r v }

/-- `PC <- PC + 1` modulo 2^16, `IB` unchanged (R24 case 1, R25). At 0xFFFF this is decision D3. Log 7. -/
def State.advance (s : State) : State := { s with pc := s.pc + 1#16 }

/-- `PC <- PC + sext_16(off8)` modulo 2^16, `IB` unchanged (R24 case 2, R161). -/
def State.branch (s : State) (off : Byte) : State := { s with pc := s.pc + off.signExtend 16 }

/-- `IB <- bank`, `PC <- addr` (R24 case 3, R160). -/
def State.jumpTo (s : State) (bank : Byte) (addr : Word) : State := { s with ib := bank, pc := addr }

/-- `DB <- bank` (R28). -/
def State.setDb (s : State) (bank : Byte) : State := { s with db := bank }

/-- `halted <- 1`, `PC` left as it is (R24 case 4, R183). Log 10. -/
def State.halt (s : State) : State := { s with halted := true }

/-- The high byte of the next draw (D4). Log 6. -/
def State.drawnByte (s : State) : Byte := Config.movibHighByte s.draws

/-- The draw is taken (D4). Log 6. -/
def State.takeDraw (s : State) : State := { s with draws := s.draws + 1 }

/-- The address an instruction is fetched from, `IB : PC` (R23, R41). -/
def State.fetchAddr (s : State) : Addr := s.ib ++ s.pc

/-- The address a load or store accesses, `DB : EA` (R42). -/
def State.dataAddr (s : State) (ea : Word) : Addr := s.db ++ ea

/-- The kind of the first region of the map that holds the address; outside every region nothing is there
(R49). -/
def kindIn : List Region → Addr → RegionKind
  | [], _ => .absent
  | r :: rest, a =>
    if r.base ≤ a.toNat ∧ a.toNat < r.base + r.size then r.kind else kindIn rest a

/-- Whether a region of the kind admits the access (R48, R49). -/
def kindAdmits : RegionKind → Access → Bool
  | .storage, .fetch | .storage, .load | .storage, .store => true
  | .readOnly, .fetch | .readOnly, .load => true
  | .readOnly, .store => false
  | .device, .fetch | .device, .load | .device, .store => false
  | .absent, .fetch | .absent, .load | .absent, .store => false

/-- Whether the machine's MemMap admits the access at the address (R49, D8). Log 9. -/
def admits (p : Platform) (k : Access) (a : Addr) : Bool := kindAdmits (kindIn p.memMap a) k

/-- `MemRead(addr, 1)`: one word, no state changed (R43, R47, R48), where MemMap admits it. -/
def memRead (k : Access) (s : State) (a : Addr) : Except Fault Word :=
  if admits s.platform k a then .ok (s.mem.read a) else .error (.notAdmitted k a)

/-- `MemWrite(addr, 1, v)`: one word changed (R44, R47), where MemMap admits it. -/
def memWrite (s : State) (a : Addr) (v : Word) : Except Fault State :=
  if admits s.platform .store a then .ok { s with mem := s.mem.write a v } else .error (.notAdmitted .store a)

/-- The word of the instruction a step executes, read with `IB` and `PC` as they stand (R41). -/
def fetch (s : State) : Except Fault Word := memRead .fetch s s.fetchAddr

/-- A register result and the sequential advance (R109, R140). -/
def finishReg (c : Reg) (v : Word) (s : State) : Answer := .next (s.setReg c v).advance

/-- A load from `DB : EA` and the sequential advance (R42, R43). -/
def finishLoad (d : Reg) (ea : Word) (s : State) : Answer :=
  match memRead .load s (s.dataAddr ea) with
  | .ok v => finishReg d v s
  | .error f => .fault f

/-- A store to `DB : EA` and the sequential advance (R42, R44). -/
def finishStore (src : Reg) (ea : Word) (s : State) : Answer :=
  match memWrite s (s.dataAddr ea) (s.reg src) with
  | .ok t => .next t.advance
  | .error f => .fault f

/-- The common rule of the branches (R161): the offset where the condition holds, else the increment. -/
def finishBranch (cond : Bool) (off : Byte) (s : State) : Answer :=
  .next (if cond then s.branch off else s.advance)

end Sys2Proof.Machine
end

