-- ==== Sys2Proof/Machine/Operands.lean ====
section
/-! DEFINITION. Every operand form: the immediates (30_encoding.md R66, R67) and the three effective addresses of the loads and stores (20_memory.md R42). -/

namespace Sys2Proof.Machine

open Sys2Proof

/-- The B operand of an 8-bit immediate, "promoted to 16-bits without sign extension" (R66). -/
def immOperand (imm : Byte) : Word := imm.setWidth 16

/-- The B operand of `lsli` and `asri`, 0 to 7 (R67). -/
def shiftOperand (sss : BitVec 3) : Word := sss.setWidth 16

/-- `(Rb)`: the B operation (R120, R123). -/
def eaB (b : Reg) (s : State) : Word := alu .b noOperand (s.reg b)

/-- `(Ra + Rb)`: the SUM operation, which wraps inside the bank (R121, R124). -/
def eaSum (a b : Reg) (s : State) : Word := alu .sum (s.reg a) (s.reg b)

/-- `(Ra - Rb)`: the DIFF operation, which wraps inside the bank (R122, R125). -/
def eaDiff (a b : Reg) (s : State) : Word := alu .diff (s.reg a) (s.reg b)

/-- The low 8 bits of a register, the bank `jump` and `bank` take from it (R160, R181). -/
def lowByte (v : Word) : Byte := v.extractLsb' 0 8

end Sys2Proof.Machine
end

