-- ==== Sys2Proof/Machine/Immediate.lean ====
section
/-! DEFINITION. The Type 1 instructions, Immediate (42_type1_immediate.md R140 to R148). -/

namespace Sys2Proof.Machine

open Sys2Proof

/-- `movi Rn,#` (R141). -/
def execMovi (n : Reg) (imm : Byte) (s : State) : Answer :=
  finishReg n (alu .b noOperand (immOperand imm)) s

/-- `addi Rn,#` (R142). -/
def execAddi (n : Reg) (imm : Byte) (s : State) : Answer :=
  finishReg n (alu .sum (s.reg n) (immOperand imm)) s

/-- `subi Rn,#` (R143). -/
def execSubi (n : Reg) (imm : Byte) (s : State) : Answer :=
  finishReg n (alu .diff (s.reg n) (immOperand imm)) s

/-- `andi Rn,#` (R144). -/
def execAndi (n : Reg) (imm : Byte) (s : State) : Answer :=
  finishReg n (alu .and (s.reg n) (immOperand imm)) s

/-- `ori Rn,#` (R145). -/
def execOri (n : Reg) (imm : Byte) (s : State) : Answer :=
  finishReg n (alu .or (s.reg n) (immOperand imm)) s

/-- `xori Rn,#` (R146). -/
def execXori (n : Reg) (imm : Byte) (s : State) : Answer :=
  finishReg n (alu .xor (s.reg n) (immOperand imm)) s

/-- `lsli Rn,£` (R147). -/
def execLsli (n : Reg) (sss : BitVec 3) (s : State) : Answer :=
  finishReg n (alu .lsl (s.reg n) (shiftOperand sss)) s

/-- `asri Rn,£` (R148). -/
def execAsri (n : Reg) (sss : BitVec 3) (s : State) : Answer :=
  finishReg n (alu .asr (s.reg n) (shiftOperand sss)) s

end Sys2Proof.Machine
end

