-- ==== Sys2Proof/Machine/Flags.lean ====
section
/-! DEFINITION. There are no flags (10_state.md R26): the four branch conditions are computed from the tested register's value (43_type2_jump_branch.md R162 to R165). -/

namespace Sys2Proof.Machine

open Sys2Proof

/-- `bz`: all 16 bits are zero (R162). -/
def isZero (v : Word) : Bool := v == 0x0000#16

/-- `bnz`: any bit is set (R163). -/
def isNotZero (v : Word) : Bool := v != 0x0000#16

/-- `bpl`: bit 15 is 0, so zero is plus (R164). -/
def isPlus (v : Word) : Bool := !v.getLsbD 15

/-- `bmi`: bit 15 is 1 (R165). -/
def isMinus (v : Word) : Bool := v.getLsbD 15

end Sys2Proof.Machine
end

