-- ==== Sys2Proof/Machine/JumpBranch.lean ====
section
/-! DEFINITION. The Type 2 instructions, Jump / Branch (43_type2_jump_branch.md R160 to R166). -/

namespace Sys2Proof.Machine

open Sys2Proof

/-- `jump Rb,Ra`: to the address `R[b][7:0] : R[a]` (R160). -/
def execJump (b a : Reg) (s : State) : Answer :=
  .next (s.jumpTo (lowByte (alu .bJump noOperand (s.reg b))) (s.reg a))

/-- `bz Rd,label` (R162). -/
def execBz (r : Reg) (off : Byte) (s : State) : Answer := finishBranch (isZero (s.reg r)) off s

/-- `bnz Rd,label` (R163). -/
def execBnz (r : Reg) (off : Byte) (s : State) : Answer := finishBranch (isNotZero (s.reg r)) off s

/-- `bpl Rd,label` (R164). -/
def execBpl (r : Reg) (off : Byte) (s : State) : Answer := finishBranch (isPlus (s.reg r)) off s

/-- `bmi Rd,label` (R165). -/
def execBmi (r : Reg) (off : Byte) (s : State) : Answer := finishBranch (isMinus (s.reg r)) off s

/-- `bra label` (R166). -/
def execBra (off : Byte) (s : State) : Answer := finishBranch true off s

end Sys2Proof.Machine
end

