-- ==== Sys2Proof/Machine/Loads.lean ====
section
/-! DEFINITION. The three loads (41_type0_register_memory.md R120 to R122). -/

namespace Sys2Proof.Machine

open Sys2Proof

/-- `mov Rd,(Rb)` (R120). -/
def execLd (d b : Reg) (s : State) : Answer := finishLoad d (eaB b s) s

/-- `mov Rd,(Ra + Rb)` (R121). -/
def execLdadd (d a b : Reg) (s : State) : Answer := finishLoad d (eaSum a b s) s

/-- `mov Rd,(Ra - Rb)` (R122). -/
def execLdsub (d a b : Reg) (s : State) : Answer := finishLoad d (eaDiff a b s) s

end Sys2Proof.Machine
end

