-- ==== Sys2Proof/Machine/Misc.lean ====
section
/-! DEFINITION. The Type 3 instructions, Miscellaneous (44_type3_miscellaneous.md R180 to R183). -/

namespace Sys2Proof.Machine

open Sys2Proof

/-- `banki #` (R180). -/
def execBanki (imm : Byte) (s : State) : Answer :=
  .next (s.setDb (lowByte (alu .bBanki noOperand (immOperand imm)))).advance

/-- `bank Rb` (R181). -/
def execBank (b : Reg) (s : State) : Answer :=
  .next (s.setDb (lowByte (alu .bBank noOperand (s.reg b)))).advance

/-- `swhl Rd,Rb` (R182). -/
def execSwhl (d b : Reg) (s : State) : Answer := finishReg d (alu .sb noOperand (s.reg b)) s

/-- `halt`: the CPU halts until it is reset (R183). Log 10. -/
def execHalt (s : State) : Answer := .next s.halt

end Sys2Proof.Machine
end

