-- ==== Sys2Proof/Machine/Moves.lean ====
section
/-! DEFINITION. The moves from the Program Counter and the Instruction Bank (41_type0_register_memory.md R118, R119). -/

namespace Sys2Proof.Machine

open Sys2Proof

/-- `movpc Rc`: the address of the `movpc` itself (R118, R22). -/
def execMovpc (c : Reg) (s : State) : Answer := finishReg c s.pc s

/-- `movib Rc`: `IB` in the low byte, a draw in the high byte (R119, D4). Log 6. -/
def execMovib (c : Reg) (s : State) : Answer := finishReg c (s.drawnByte ++ s.ib) s.takeDraw

end Sys2Proof.Machine
end

