-- ==== Sys2Proof/Machine/RegisterOps.lean ====
section
/-! DEFINITION. The Type 0 register operations, `mov` to `asr` and `nop` (41_type0_register_memory.md R109 to R117, R126). -/

namespace Sys2Proof.Machine

open Sys2Proof

/-- `nop`: `R[0] <- R[0]` (R126). -/
def execNop (s : State) : Answer := finishReg 0 (alu .b noOperand (s.reg 0)) s

/-- `mov Rc,Rb` (R110). -/
def execMov (c b : Reg) (s : State) : Answer := finishReg c (alu .b noOperand (s.reg b)) s

/-- `add Rc,Ra,Rb` (R111). -/
def execAdd (c a b : Reg) (s : State) : Answer := finishReg c (alu .sum (s.reg a) (s.reg b)) s

/-- `sub Rc,Ra,Rb` (R112). -/
def execSub (c a b : Reg) (s : State) : Answer := finishReg c (alu .diff (s.reg a) (s.reg b)) s

/-- `and Rc,Ra,Rb` (R113). -/
def execAnd (c a b : Reg) (s : State) : Answer := finishReg c (alu .and (s.reg a) (s.reg b)) s

/-- `or Rc,Ra,Rb` (R114). -/
def execOr (c a b : Reg) (s : State) : Answer := finishReg c (alu .or (s.reg a) (s.reg b)) s

/-- `xor Rc,Ra,Rb` (R115). -/
def execXor (c a b : Reg) (s : State) : Answer := finishReg c (alu .xor (s.reg a) (s.reg b)) s

/-- `lsl Rc,Ra,Rb` (R116). -/
def execLsl (c a b : Reg) (s : State) : Answer := finishReg c (alu .lsl (s.reg a) (s.reg b)) s

/-- `asr Rc,Ra,Rb` (R117). -/
def execAsr (c a b : Reg) (s : State) : Answer := finishReg c (alu .asr (s.reg a) (s.reg b)) s

end Sys2Proof.Machine
end

