-- ==== Sys2Proof/Machine/Stores.lean ====
section
/-! DEFINITION. The three stores (41_type0_register_memory.md R123 to R125). -/

namespace Sys2Proof.Machine

open Sys2Proof

/-- `mov (Rb),Rs` (R123). -/
def execSt (src b : Reg) (s : State) : Answer := finishStore src (eaB b s) s

/-- `mov (Ra + Rb),Rs` (R124). -/
def execStadd (src a b : Reg) (s : State) : Answer := finishStore src (eaSum a b s) s

/-- `mov (Ra - Rb),Rs` (R125). -/
def execStsub (src a b : Reg) (s : State) : Answer := finishStore src (eaDiff a b s) s

end Sys2Proof.Machine
end

