-- ==== Sys2Proof/Machine/Dispatch.lean ====
section
/-! DEFINITION. One arm per instruction: the call of its meaning. -/

namespace Sys2Proof.Machine

open Sys2Proof

/-- The meaning of an instruction in a state. -/
def exec (i : Instr) (s : State) : Host.Outcome State Fault Refusal :=
  match i with
  | .nop => Sys2Proof.Machine.execNop s
  | .mov c b => Sys2Proof.Machine.execMov c b s
  | .add c a b => Sys2Proof.Machine.execAdd c a b s
  | .sub c a b => Sys2Proof.Machine.execSub c a b s
  | .and c a b => Sys2Proof.Machine.execAnd c a b s
  | .or c a b => Sys2Proof.Machine.execOr c a b s
  | .xor c a b => Sys2Proof.Machine.execXor c a b s
  | .lsl c a b => Sys2Proof.Machine.execLsl c a b s
  | .asr c a b => Sys2Proof.Machine.execAsr c a b s
  | .movpc c => Sys2Proof.Machine.execMovpc c s
  | .movib c => Sys2Proof.Machine.execMovib c s
  | .ld d b => Sys2Proof.Machine.execLd d b s
  | .ldadd d a b => Sys2Proof.Machine.execLdadd d a b s
  | .ldsub d a b => Sys2Proof.Machine.execLdsub d a b s
  | .st src b => Sys2Proof.Machine.execSt src b s
  | .stadd src a b => Sys2Proof.Machine.execStadd src a b s
  | .stsub src a b => Sys2Proof.Machine.execStsub src a b s
  | .movi n imm => Sys2Proof.Machine.execMovi n imm s
  | .addi n imm => Sys2Proof.Machine.execAddi n imm s
  | .subi n imm => Sys2Proof.Machine.execSubi n imm s
  | .andi n imm => Sys2Proof.Machine.execAndi n imm s
  | .ori n imm => Sys2Proof.Machine.execOri n imm s
  | .xori n imm => Sys2Proof.Machine.execXori n imm s
  | .lsli n sss => Sys2Proof.Machine.execLsli n sss s
  | .asri n sss => Sys2Proof.Machine.execAsri n sss s
  | .jump b a => Sys2Proof.Machine.execJump b a s
  | .bz r off => Sys2Proof.Machine.execBz r off s
  | .bnz r off => Sys2Proof.Machine.execBnz r off s
  | .bpl r off => Sys2Proof.Machine.execBpl r off s
  | .bmi r off => Sys2Proof.Machine.execBmi r off s
  | .bra off => Sys2Proof.Machine.execBra off s
  | .banki imm => Sys2Proof.Machine.execBanki imm s
  | .bank b => Sys2Proof.Machine.execBank b s
  | .swhl d b => Sys2Proof.Machine.execSwhl d b s
  | .halt => Sys2Proof.Machine.execHalt s

end Sys2Proof.Machine
end

