-- ==== Sys2Proof/Machine/HostInterface.lean ====
section
/-! DEFINITION. What the host does to the machine between runs (70_reset_and_hazards.md R220 to R222, D20, D22). Neither is a step of the CPU. -/

namespace Sys2Proof.Machine

open Sys2Proof

/-- Reset, in any state: execution restarts at the machine's own `RESET_IB : RESET_PC`, the halt latch is
cleared and memory is kept; the registers and `DB` hold unknown but definite values, which are
arguments here (R220, R221, D6, D22). The draws taken stay taken. Log 13. -/
def State.hostReset (s : State) (regs : Vector Word 8) (db : Byte) : State :=
  { State.resetOn s.platform regs db s.mem with draws := s.draws }

/-- The host's load of one word of InitialMemory, before a run (D8, D20). Log 13. -/
def State.hostStore (s : State) (a : Addr) (v : Word) : State := { s with mem := s.mem.write a v }

end Sys2Proof.Machine
end

