-- ==== Sys2Proof/Machine/Step.lean ====
section
/-! DEFINITION. One step of the CPU (00_scope.md R10, 20_memory.md R41), and the placing of an instruction where the next step fetches it. -/

namespace Sys2Proof.Machine

open Sys2Proof

/-- One step: a halted CPU makes none (R31, R183); otherwise the word at `IB : PC` is fetched first (R41,
D19), decoded, refused if it is undefined (R78, D2), and executed. -/
def step (s : State) : Host.Outcome State Fault Refusal :=
  if s.halted then .fault .halted
  else
    match fetch s with
    | .error f => .fault f
    | .ok w =>
      match decode w with
      | .error u => .refused (.undefinedWord u w)
      | .ok i => exec i s

/-- The state with the instruction word `w` at `IB : PC` and the CPU running, so that the next step
executes it wherever MemMap admits a fetch, as the default does everywhere. It stands for the host's load
(D20): log 13. -/
def State.withFetchWord (s : State) (nbits w : Nat) : State :=
  { s.hostStore s.fetchAddr (BitVec.ofNat 16 (w % 2 ^ nbits)) with halted := false }

end Sys2Proof.Machine
end

