-- ==== Sys2Proof/Safety.lean ====
section
/-! DEFINITION. The terms claims use: a legal state, a finished and a refused run (44_type3_miscellaneous.md R184, 30_encoding.md R78), what an instruction leaves unchanged, and which registers it names. -/

namespace Sys2Proof.Machine

open Sys2Proof

/-- The invariant of the model: memory is in its canonical form. -/
abbrev State.Inv (s : State) : Prop := s.mem.wf = true

/-- The machine after `n` steps, stopping at the first fault or refusal (R184). -/
def runFor : Nat → State → Answer
  | 0, s => .next s
  | n + 1, s =>
    match step s with
    | .next t => runFor n t
    | .fault f => .fault f
    | .refused r => .refused r

/-- A run from `s` ends in `t` after `n` steps: the last of them executed `halt` (R184). -/
def RunEnds (s : State) (n : Nat) (t : State) : Prop := runFor n s = .next t ∧ t.halted = true

/-- A run from `s` is refused within `n` steps: it reached an undefined word (R78, D2). -/
def RunRefused (s : State) (n : Nat) : Prop := ∃ r, runFor n s = .refused r

/-- Every word of memory reads in `t` as in `s`. -/
def SameMemory (s t : State) : Prop := ∀ a : Addr, t.mem.read a = s.mem.read a

/-- Everything but the registers, the program counter and memory is as it was. -/
def SameBanks (s t : State) : Prop :=
  t.ib = s.ib ∧ t.db = s.db ∧ t.halted = s.halted ∧ t.draws = s.draws ∧ t.platform = s.platform

/-- The frame of an instruction whose one destination is the register `c`, and which then advances. -/
def WritesOnly (c : Reg) (s t : State) : Prop :=
  (∀ r, r ≠ c → t.reg r = s.reg r) ∧ t.pc = s.pc + 1#16 ∧ SameBanks s t ∧ SameMemory s t

/-- The frame of an instruction that stores one word at `a`, and then advances. -/
def StoresOnly (a : Addr) (s t : State) : Prop :=
  (∀ r, t.reg r = s.reg r) ∧ t.pc = s.pc + 1#16 ∧ SameBanks s t ∧
    ∀ a', a' ≠ a → t.mem.read a' = s.mem.read a'

/-- The frame of an instruction that writes nothing but `PC`. -/
def WritesOnlyPc (s t : State) : Prop :=
  (∀ r, t.reg r = s.reg r) ∧ SameBanks s t ∧ SameMemory s t

/-- The frame of an instruction that writes `DB`, and then advances. -/
def WritesOnlyDb (s t : State) : Prop :=
  (∀ r, t.reg r = s.reg r) ∧ t.pc = s.pc + 1#16 ∧ t.ib = s.ib ∧ t.halted = s.halted ∧
    t.draws = s.draws ∧ t.platform = s.platform ∧ SameMemory s t

/-- The general register named by the three bits of a word from `lo` up (R20). -/
def regAt (w : Word) (lo : Nat) : Reg := (w.extractLsb' lo 3).toFin

/-- The words of a row of the opcode table are exactly those the decoder reads as the row's instruction
with the row's fields. -/
def RowIs (mask pattern : Word) (instr : Word → Instr) : Prop :=
  ∀ w : Word, w &&& mask = pattern ↔ decode w = .ok (instr w)

/-- The number of bits a shift moves by, from the value of its B operand: "a shift of zero actually shifts by
eight bits" (R97). -/
def shiftBy (y : Nat) : Nat := if y % 8 = 0 then 8 else y % 8

/-- The general register an instruction writes, if any (R21). -/
def destOf : Instr → Option Reg
  | .nop => some 0
  | .mov c _ | .add c _ _ | .sub c _ _ | .and c _ _ | .or c _ _ | .xor c _ _ | .lsl c _ _
  | .asr c _ _ | .movpc c | .movib c => some c
  | .ld d _ | .ldadd d _ _ | .ldsub d _ _ => some d
  | .movi n _ | .addi n _ | .subi n _ | .andi n _ | .ori n _ | .xori n _ | .lsli n _
  | .asri n _ => some n
  | .swhl d _ => some d
  | .st .. | .stadd .. | .stsub .. | .jump .. | .bz .. | .bnz .. | .bpl .. | .bmi .. | .bra ..
  | .banki .. | .bank .. | .halt => none

/-- The general registers an instruction reads (R21). -/
def sourcesOf : Instr → List Reg
  | .nop => [0]
  | .mov _ b | .ld _ b | .swhl _ b | .bank b => [b]
  | .add _ a b | .sub _ a b | .and _ a b | .or _ a b | .xor _ a b | .lsl _ a b | .asr _ a b
  | .ldadd _ a b | .ldsub _ a b | .jump b a => [a, b]
  | .st src b => [src, b]
  | .stadd src a b | .stsub src a b => [src, a, b]
  | .addi n _ | .subi n _ | .andi n _ | .ori n _ | .xori n _ | .lsli n _ | .asri n _ => [n]
  | .bz r _ | .bnz r _ | .bpl r _ | .bmi r _ => [r]
  | .movpc .. | .movib .. | .movi .. | .bra .. | .banki .. | .halt => []

/-- The instructions that reach memory through `DB` (R28). -/
def usesDb : Instr → Bool
  | .ld .. | .ldadd .. | .ldsub .. | .st .. | .stadd .. | .stsub .. => true
  | .nop | .mov .. | .add .. | .sub .. | .and .. | .or .. | .xor .. | .lsl .. | .asr ..
  | .movpc .. | .movib .. | .movi .. | .addi .. | .subi .. | .andi .. | .ori .. | .xori ..
  | .lsli .. | .asri .. | .jump .. | .bz .. | .bnz .. | .bpl .. | .bmi .. | .bra .. | .banki ..
  | .bank .. | .swhl .. | .halt => false

/-- The data access an instruction makes, if any: what it is, and its address `DB : EA` (R42, R47). -/
def dataAccess (s : State) : Instr → Option (Access × Addr)
  | .ld _ b => some (.load, s.dataAddr (eaB b s))
  | .ldadd _ a b => some (.load, s.dataAddr (eaSum a b s))
  | .ldsub _ a b => some (.load, s.dataAddr (eaDiff a b s))
  | .st _ b => some (.store, s.dataAddr (eaB b s))
  | .stadd _ a b => some (.store, s.dataAddr (eaSum a b s))
  | .stsub _ a b => some (.store, s.dataAddr (eaDiff a b s))
  | .nop | .mov .. | .add .. | .sub .. | .and .. | .or .. | .xor .. | .lsl .. | .asr ..
  | .movpc .. | .movib .. | .movi .. | .addi .. | .subi .. | .andi .. | .ori .. | .xori ..
  | .lsli .. | .asri .. | .jump .. | .bz .. | .bnz .. | .bpl .. | .bmi .. | .bra .. | .banki ..
  | .bank .. | .swhl .. | .halt => none

/-- MemMap admits the data access the instruction makes, or it makes none (R49). -/
def dataAdmitted (s : State) (i : Instr) : Bool :=
  match dataAccess s i with
  | some (k, a) => admits s.platform k a
  | none => true

/-- The address lies in the region of MemMap (R49). -/
def InRegion (r : Region) (a : Addr) : Prop := r.base ≤ a.toNat ∧ a.toNat < r.base + r.size

/-- The stores, the only instructions that write memory (R44). -/
def isStore : Instr → Bool
  | .st .. | .stadd .. | .stsub .. => true
  | .nop | .mov .. | .add .. | .sub .. | .and .. | .or .. | .xor .. | .lsl .. | .asr ..
  | .movpc .. | .movib .. | .ld .. | .ldadd .. | .ldsub .. | .movi .. | .addi .. | .subi ..
  | .andi .. | .ori .. | .xori .. | .lsli .. | .asri .. | .jump .. | .bz .. | .bnz .. | .bpl ..
  | .bmi .. | .bra .. | .banki .. | .bank .. | .swhl .. | .halt => false

/-- Where an instruction leaves `PC`, by the four ways of R24. -/
def nextPc (s : State) : Instr → Word
  | .jump _ a => s.reg a
  | .halt => s.pc
  | .bra off => s.pc + off.signExtend 16
  | .bz r off => if s.reg r = 0x0000#16 then s.pc + off.signExtend 16 else s.pc + 1#16
  | .bnz r off => if s.reg r = 0x0000#16 then s.pc + 1#16 else s.pc + off.signExtend 16
  | .bpl r off => if (s.reg r).toInt < 0 then s.pc + 1#16 else s.pc + off.signExtend 16
  | .bmi r off => if (s.reg r).toInt < 0 then s.pc + off.signExtend 16 else s.pc + 1#16
  | .nop | .mov .. | .add .. | .sub .. | .and .. | .or .. | .xor .. | .lsl .. | .asr ..
  | .movpc .. | .movib .. | .ld .. | .ldadd .. | .ldsub .. | .st .. | .stadd .. | .stsub ..
  | .movi .. | .addi .. | .subi .. | .andi .. | .ori .. | .xori .. | .lsli .. | .asri ..
  | .banki .. | .bank .. | .swhl .. => s.pc + 1#16

/-- Where an instruction leaves `IB`: only `jump` writes it (R24, R27). -/
def nextIb (s : State) : Instr → Byte
  | .jump b _ => (s.reg b).extractLsb' 0 8
  | .nop | .mov .. | .add .. | .sub .. | .and .. | .or .. | .xor .. | .lsl .. | .asr ..
  | .movpc .. | .movib .. | .ld .. | .ldadd .. | .ldsub .. | .st .. | .stadd .. | .stsub ..
  | .movi .. | .addi .. | .subi .. | .andi .. | .ori .. | .xori .. | .lsli .. | .asri ..
  | .bz .. | .bnz .. | .bpl .. | .bmi .. | .bra .. | .banki .. | .bank .. | .swhl .. | .halt => s.ib

/-- Where an instruction leaves `DB`: only `banki` and `bank` write it (R28). -/
def nextDb (s : State) : Instr → Byte
  | .banki imm => imm
  | .bank b => (s.reg b).extractLsb' 0 8
  | .nop | .mov .. | .add .. | .sub .. | .and .. | .or .. | .xor .. | .lsl .. | .asr ..
  | .movpc .. | .movib .. | .ld .. | .ldadd .. | .ldsub .. | .st .. | .stadd .. | .stsub ..
  | .movi .. | .addi .. | .subi .. | .andi .. | .ori .. | .xori .. | .lsli .. | .asri .. | .jump ..
  | .bz .. | .bnz .. | .bpl .. | .bmi .. | .bra .. | .swhl .. | .halt => s.db

end Sys2Proof.Machine
end

