-- ==== Sys2Proof/Certificates/Slice0/Obligations.lean ====
section
/-! DEFINITION. The statements for the provers. A docstring names the rule of spec/ a statement formalises, and the log entry where it rests on a decision. Where a statement says `PC + 1`, that is R24 case 1, modulo 2^16. -/

open Sys2Proof Sys2Proof.Machine

/-! ## Encoding -/

/-- Decoding the word of a well-formed instruction gives it back, every operand at every value its field
admits (R72 to R75). The `movib` word is decision D1 (log 5), and `mov r0,r0` is the word of `nop` (R76,
log 15). -/
def Obligations.DecodeEncodeRoundTrip : Prop :=
  ∀ i : Instr, i.wellFormed = true → decode (encode i) = .ok i

/-- Every word the decoder accepts is the word of the instruction it answers, which is well formed: no word
has two readings and no bit of a word is dropped (R72 to R76). -/
def Obligations.EncodeDecodeRoundTrip : Prop :=
  ∀ (w : Word) (i : Instr), decode w = .ok i → encode i = w ∧ i.wellFormed = true

/-- The decoder accepts a word exactly when the word fits a row of the opcode table (R72 to R75, R78). That
the others are refused is decision D2 (log 8). -/
def Obligations.DefinedIffSomeRowFits : Prop :=
  ∀ w : Word, (∃ i, decode w = .ok i) ↔ ∃ r ∈ opcodeRows, w &&& r.mask = r.pattern

/-- No word but 0x0000 fits two rows of the opcode table (30_encoding.md section 7, R76). -/
def Obligations.NoWordFitsTwoRows : Prop :=
  ∀ (w : Word) (r q : Row), r ∈ opcodeRows → q ∈ opcodeRows →
    w &&& r.mask = r.pattern → w &&& q.mask = q.pattern → r = q ∨ w = 0x0000#16

/-- The exact list of the undefined words of R78, each under its own name. That they are refused is
decision D2 (log 8). -/
def Obligations.UndefinedWordsExactly : Prop :=
  ∀ w : Word,
    let ty := w.extractLsb' 14 2
    let c := w.extractLsb' 11 3
    let a := w.extractLsb' 8 3
    let low := w.extractLsb' 0 5
    let mode := w.extractLsb' 3 2
    let op := w.extractLsb' 0 3
    (decode w = .error .fieldASet ↔
      ty = 0#2 ∧ (low = 0b00000#5 ∨ low = 0b01000#5 ∨ low = 0b11000#5) ∧ a ≠ 0#3) ∧
    (decode w = .error .readOperation ↔ ty = 0#2 ∧ 0b01011#5 ≤ low ∧ low ≤ 0b01111#5) ∧
    (decode w = .error .writeOperation ↔ ty = 0#2 ∧ 0b11011#5 ≤ low ∧ low ≤ 0b11111#5) ∧
    (decode w = .error .moveFields ↔
      ty = 0#2 ∧ low = 0b10000#5 ∧ w.extractLsb' 5 6 ≠ 0b000000#6 ∧ w.extractLsb' 5 6 ≠ 0b000001#6) ∧
    (decode w = .error .moveOperation ↔ ty = 0#2 ∧ 0b10001#5 ≤ low ∧ low ≤ 0b10111#5) ∧
    (decode w = .error .shiftAmountHigh ↔
      ty = 1#2 ∧ (op = 0b110#3 ∨ op = 0b111#3) ∧ w.extractLsb' 6 5 ≠ 0#5) ∧
    (decode w = .error .type2Operation ↔ ty = 2#2 ∧ (op = 0b001#3 ∨ op = 0b010#3)) ∧
    (decode w = .error .jumpFields ↔ ty = 2#2 ∧ op = 0b000#3 ∧ (c ≠ 0#3 ∨ mode ≠ 0#2)) ∧
    (decode w = .error .braFields ↔ ty = 2#2 ∧ op = 0b111#3 ∧ c ≠ 0#3) ∧
    (decode w = .error .type3Operation ↔
      ty = 3#2 ∧ (op = 0b000#3 ∨ op = 0b100#3 ∨ op = 0b101#3 ∨ op = 0b110#3)) ∧
    (decode w = .error .bankiFields ↔ ty = 3#2 ∧ op = 0b001#3 ∧ c ≠ 0#3) ∧
    (decode w = .error .bankFields ↔
      ty = 3#2 ∧ op = 0b010#3 ∧ (w.extractLsb' 8 6 ≠ 0#6 ∨ mode ≠ 0#2)) ∧
    (decode w = .error .swhlFields ↔ ty = 3#2 ∧ op = 0b011#3 ∧ (a ≠ 0#3 ∨ mode ≠ 0#2)) ∧
    (decode w = .error .haltFields ↔ ty = 3#2 ∧ op = 0b111#3 ∧ w.extractLsb' 3 11 ≠ 0#11)

/-- The spec's own example words, at least one of every family, decode to the instructions they stand for
(30_encoding.md section 10, 95_test_vectors.md parts 1 and 2; 0x6806 is R147's example and vector T1-16).
The word 0x0830 of `movib` rests on decision D1 (log 5, DEDUCED). -/
def Obligations.SpecWordsDecode : Prop :=
  decode 0x1060#16 = .ok (.mov 2 3) ∧ decode 0x2261#16 = .ok (.add 4 2 3) ∧
  decode 0x2DC2#16 = .ok (.sub 5 5 6) ∧ decode 0x0010#16 = .ok (.movpc 0) ∧
  decode 0x0830#16 = .ok (.movib 1) ∧ decode 0x2A69#16 = .ok (.ldadd 5 2 3) ∧
  decode 0x05DA#16 = .ok (.stsub 0 5 6) ∧ decode 0x0000#16 = .ok .nop ∧
  decode 0x5E20#16 = .ok (.movi 3 0xC4#8) ∧ decode 0x6806#16 = .ok (.lsli 5 0#3) ∧
  decode 0x8020#16 = .ok (.jump 1 0) ∧ decode 0x8FF4#16 = .ok (.bnz 1 0xFE#8) ∧
  decode 0x87E7#16 = .ok (.bra 0xFC#8) ∧ decode 0xC401#16 = .ok (.banki 0x80#8) ∧
  decode 0xC002#16 = .ok (.bank 0) ∧ decode 0xE843#16 = .ok (.swhl 5 2) ∧
  decode 0xC007#16 = .ok .halt

/-! ## The step -/

/-- The address of the fetch is `IB : PC`, and where MemMap admits the fetch and the word there decodes, the
step of a running CPU is that instruction's `exec` in the same state and nothing else (R23, R41; the
order is decision D19, log 11; the admission is R49, log 9). -/
def Obligations.StepRunsDecoded : Prop :=
  ∀ (s : State) (i : Instr),
    s.fetchAddr.toNat = s.ib.toNat * 65536 + s.pc.toNat ∧
    (s.halted = false → admits s.platform .fetch s.fetchAddr = true →
      decode (s.mem.read s.fetchAddr) = .ok i → step s = exec i s)

/-- A running CPU that fetches an undefined word is refused, under the word's own reason (R78; the spec's
decision D2, log 8). -/
def Obligations.UndefinedWordIsRefused : Prop :=
  ∀ (s : State) (u : Undefined), s.halted = false →
    admits s.platform .fetch s.fetchAddr = true →
    decode (s.mem.read s.fetchAddr) = .error u →
    step s = .refused (.undefinedWord u (s.mem.read s.fetchAddr))

/-- While the halt latch is set the CPU makes no step, whatever stands at `IB : PC` (R31, R183; that no step
is possible is decision D15, log 10). -/
def Obligations.HaltedMakesNoStep : Prop :=
  ∀ s : State, s.halted = true → step s = .fault .halted

/-- What a step can do, on every machine: none, because the CPU is halted or MemMap does not admit the fetch
or the data access; the refusal of an undefined word; or a next state. With the spec's default MemMap
three are left: a next state, none because the CPU is halted, or the refusal (R49, R78, R183, R200;
decisions D2, D8, D12 and D15, log 8, log 9, log 10). -/
def Obligations.StepOutcomes : Prop :=
  (∀ s : State,
    (s.halted = true ∧ step s = .fault .halted) ∨
    (s.halted = false ∧ admits s.platform .fetch s.fetchAddr = false ∧
      step s = .fault (.notAdmitted .fetch s.fetchAddr)) ∨
    (s.halted = false ∧ admits s.platform .fetch s.fetchAddr = true ∧
      ∃ u, decode (s.mem.read s.fetchAddr) = .error u ∧
        step s = .refused (.undefinedWord u (s.mem.read s.fetchAddr))) ∨
    (s.halted = false ∧ admits s.platform .fetch s.fetchAddr = true ∧
      ∃ i k a, decode (s.mem.read s.fetchAddr) = .ok i ∧ dataAccess s i = some (k, a) ∧
        admits s.platform k a = false ∧ step s = .fault (.notAdmitted k a)) ∨
    (s.halted = false ∧ admits s.platform .fetch s.fetchAddr = true ∧
      ∃ i t, decode (s.mem.read s.fetchAddr) = .ok i ∧ dataAdmitted s i = true ∧
        step s = .next t)) ∧
  (∀ s : State, s.platform.memMap = Config.memMap →
    (s.halted = true ∧ step s = .fault .halted) ∨
    (s.halted = false ∧ (∃ i, decode (s.mem.read s.fetchAddr) = .ok i) ∧ ∃ t, step s = .next t) ∨
    (s.halted = false ∧ ∃ u, decode (s.mem.read s.fetchAddr) = .error u ∧
      step s = .refused (.undefinedWord u (s.mem.read s.fetchAddr))))

/-! ## Type 0: register operations -/

/-- R110 and R126: `mov` copies a register, `nop` is `mov r0,r0` and changes nothing but `PC`; their words,
and the words with `aaa` not 000, which are undefined. -/
def Obligations.MovAndNop : Prop :=
  (∀ w : Word, (w &&& 0xC71F#16 = 0x0000#16 ∧ w ≠ 0x0000#16) ↔
    decode w = .ok (.mov (regAt w 11) (regAt w 5))) ∧
  (∀ w : Word, w = 0x0000#16 ↔ decode w = .ok .nop) ∧
  (∀ w : Word, w &&& 0xC01F#16 = 0x0000#16 → w.extractLsb' 8 3 ≠ 0#3 → ∃ u, decode w = .error u) ∧
  (∀ (c b : Reg) (s : State), ∃ t, exec (.mov c b) s = .next t ∧
    t.reg c = s.reg b ∧ WritesOnly c s t) ∧
  (∀ s : State, exec .nop s = .next { s with pc := s.pc + 1#16 } ∧ exec .nop s = exec (.mov 0 0) s)

/-- R111 and R112: the sum and the difference modulo 2^16, with every choice of the three registers; the
words. The wrap is decision D21 (log 14). -/
def Obligations.AddAndSub : Prop :=
  RowIs 0xC01F#16 0x0001#16 (fun w => .add (regAt w 11) (regAt w 8) (regAt w 5)) ∧
  RowIs 0xC01F#16 0x0002#16 (fun w => .sub (regAt w 11) (regAt w 8) (regAt w 5)) ∧
  (∀ (c a b : Reg) (s : State), ∃ t, exec (.add c a b) s = .next t ∧
    (t.reg c).toNat = ((s.reg a).toNat + (s.reg b).toNat) % 65536 ∧ WritesOnly c s t) ∧
  (∀ (c a b : Reg) (s : State), ∃ t, exec (.sub c a b) s = .next t ∧
    ((t.reg c).toNat : Int) = ((s.reg a).toNat - (s.reg b).toNat : Int) % 65536 ∧ WritesOnly c s t)

/-- R113, R114 and R115: AND, OR and exclusive OR bit by bit, with every choice of the three registers; the
words. -/
def Obligations.AndOrXor : Prop :=
  RowIs 0xC01F#16 0x0003#16 (fun w => .and (regAt w 11) (regAt w 8) (regAt w 5)) ∧
  RowIs 0xC01F#16 0x0004#16 (fun w => .or (regAt w 11) (regAt w 8) (regAt w 5)) ∧
  RowIs 0xC01F#16 0x0005#16 (fun w => .xor (regAt w 11) (regAt w 8) (regAt w 5)) ∧
  (∀ (c a b : Reg) (s : State), ∃ t, exec (.and c a b) s = .next t ∧ WritesOnly c s t ∧
    ∀ k < 16, (t.reg c).getLsbD k = ((s.reg a).getLsbD k && (s.reg b).getLsbD k)) ∧
  (∀ (c a b : Reg) (s : State), ∃ t, exec (.or c a b) s = .next t ∧ WritesOnly c s t ∧
    ∀ k < 16, (t.reg c).getLsbD k = ((s.reg a).getLsbD k || (s.reg b).getLsbD k)) ∧
  (∀ (c a b : Reg) (s : State), ∃ t, exec (.xor c a b) s = .next t ∧ WritesOnly c s t ∧
    ∀ k < 16, (t.reg c).getLsbD k = ((s.reg a).getLsbD k != (s.reg b).getLsbD k))

/-- R116: `lsl` multiplies by 2^n modulo 2^16, n the low three bits of the amount with 0 read as 8; the
words. -/
def Obligations.LslByRegister : Prop :=
  RowIs 0xC01F#16 0x0006#16 (fun w => .lsl (regAt w 11) (regAt w 8) (regAt w 5)) ∧
  (∀ (c a b : Reg) (s : State), ∃ t, exec (.lsl c a b) s = .next t ∧
    (t.reg c).toNat = ((s.reg a).toNat * 2 ^ shiftBy (s.reg b).toNat) % 65536 ∧ WritesOnly c s t)

/-- R117: `asr` copies the sign bit into the vacated bits, which is division by 2^n rounded toward minus
infinity; the words. That the shift fills with the sign is G2 (log 14). -/
def Obligations.AsrByRegister : Prop :=
  RowIs 0xC01F#16 0x0007#16 (fun w => .asr (regAt w 11) (regAt w 8) (regAt w 5)) ∧
  (∀ (c a b : Reg) (s : State), ∃ t, exec (.asr c a b) s = .next t ∧ WritesOnly c s t ∧
    (∀ k < 16, (t.reg c).getLsbD k
      = (s.reg a).getLsbD (min (k + shiftBy (s.reg b).toNat) 15)) ∧
    (t.reg c).toInt = (s.reg a).toInt / 2 ^ shiftBy (s.reg b).toNat)

/-- R63, R109 and R140 together: the ALU code read off the word, `w[15] : w[2:0]`, is the operation that a
register operation or an immediate instruction applies to its A and B operands. -/
def Obligations.OperationIsTheWordsAluCode : Prop :=
  (∀ (w : Word) (i : Instr) (s : State), decode w = .ok i →
    w.extractLsb' 14 2 = 0b00#2 → w.extractLsb' 3 2 = 0b00#2 →
    ∃ op t, aluOpOfCode (w.extractLsb' 15 1 ++ w.extractLsb' 0 3) = some op ∧ exec i s = .next t ∧
      t.reg (regAt w 11) = alu op (s.reg (regAt w 8)) (s.reg (regAt w 5))) ∧
  (∀ (w : Word) (i : Instr) (s : State), decode w = .ok i → w.extractLsb' 14 2 = 0b01#2 →
    ∃ op t, aluOpOfCode (w.extractLsb' 15 1 ++ w.extractLsb' 0 3) = some op ∧ exec i s = .next t ∧
      t.reg (regAt w 11) = alu op (s.reg (regAt w 11)) ((w.extractLsb' 3 8).setWidth 16))

/-! ## Type 0: moves, loads and stores -/

/-- R118: `movpc` yields the address of the `movpc` itself, the program counter before it is incremented;
the words. It is the only way to read `PC`: with any other instruction, what `PC` holds shows in no
register, no bank, not in the latch and not in memory. -/
def Obligations.MovpcYieldsOwnAddress : Prop :=
  RowIs 0xC7FF#16 0x0010#16 (fun w => .movpc (regAt w 11)) ∧
  (∀ (c : Reg) (s : State), ∃ t, exec (.movpc c) s = .next t ∧ t.reg c = s.pc ∧ WritesOnly c s t) ∧
  (∀ (i : Instr) (s : State) (p : Word), (∀ c, i ≠ .movpc c) →
    ∀ t, exec i s = .next t → ∃ u, exec i { s with pc := p } = .next u ∧
      u.regs = t.regs ∧ u.ib = t.ib ∧ u.db = t.db ∧ u.halted = t.halted ∧ u.mem = t.mem)

/-- R119: `movib` puts `IB` in the low byte; of the high byte nothing is said, for it is a draw (decision D4,
log 6). It is the only way to read `IB`: with any other instruction, what `IB` holds shows in no
register, not in `PC`, `DB`, the latch or memory. The words are decision D1 (log 5). The draw counter is
the model's own. -/
def Obligations.MovibYieldsBank : Prop :=
  RowIs 0xC7FF#16 0x0030#16 (fun w => .movib (regAt w 11)) ∧
  (∀ (c : Reg) (s : State), ∃ t, exec (.movib c) s = .next t ∧
    (t.reg c).extractLsb' 0 8 = s.ib ∧ (∀ r, r ≠ c → t.reg r = s.reg r) ∧ t.pc = s.pc + 1#16 ∧
    t.ib = s.ib ∧ t.db = s.db ∧ t.halted = s.halted ∧ SameMemory s t ∧ t.draws = s.draws + 1 ∧
    t.platform = s.platform) ∧
  (∀ (i : Instr) (s : State) (bank : Byte), (∀ c, i ≠ .movib c) →
    ∀ t, exec i s = .next t → ∃ u, exec i { s with ib := bank } = .next u ∧
      u.regs = t.regs ∧ u.pc = t.pc ∧ u.db = t.db ∧ u.halted = t.halted ∧ u.mem = t.mem)

/-- R120: `mov Rd,(Rb)` loads the word at `DB : R[b]`, the address taken from the old value where the two
registers are the same, wherever MemMap admits the load; the words. -/
def Obligations.LoadIndirect : Prop :=
  RowIs 0xC71F#16 0x0008#16 (fun w => .ld (regAt w 11) (regAt w 5)) ∧
  (∀ (d b : Reg) (s : State), admits s.platform .load (s.dataAddr (eaB b s)) = true →
    ∃ t, exec (.ld d b) s = .next t ∧ WritesOnly d s t ∧
    t.reg d = s.mem.read (BitVec.ofNat 24 (s.db.toNat * 65536 + (s.reg b).toNat)))

/-- R121 and R122: the indexed loads, whose sum or difference wraps inside the bank `DB`, wherever MemMap admits
the load; the words. The wrap is R42's, derived there (D21, log 14). -/
def Obligations.LoadIndexed : Prop :=
  RowIs 0xC01F#16 0x0009#16 (fun w => .ldadd (regAt w 11) (regAt w 8) (regAt w 5)) ∧
  RowIs 0xC01F#16 0x000A#16 (fun w => .ldsub (regAt w 11) (regAt w 8) (regAt w 5)) ∧
  (∀ (d a b : Reg) (s : State), admits s.platform .load (s.dataAddr (eaSum a b s)) = true →
    ∃ t, exec (.ldadd d a b) s = .next t ∧ WritesOnly d s t ∧
    t.reg d = s.mem.read (BitVec.ofNat 24
      (s.db.toNat * 65536 + ((s.reg a).toNat + (s.reg b).toNat) % 65536))) ∧
  (∀ (d a b : Reg) (s : State), admits s.platform .load (s.dataAddr (eaDiff a b s)) = true →
    ∃ t, exec (.ldsub d a b) s = .next t ∧ WritesOnly d s t ∧
    t.reg d = s.mem.read (BitVec.ofInt 24
      (s.db.toNat * 65536 + ((s.reg a).toNat - (s.reg b).toNat : Int) % 65536)))

/-- R123: `mov (Rb),Rs` stores the register at `DB : R[b]` and leaves every other word and every register
unchanged, wherever MemMap admits the store; the words. -/
def Obligations.StoreIndirect : Prop :=
  RowIs 0xC71F#16 0x0018#16 (fun w => .st (regAt w 11) (regAt w 5)) ∧
  (∀ (src b : Reg) (s : State), admits s.platform .store (s.dataAddr (eaB b s)) = true →
    ∃ t, exec (.st src b) s = .next t ∧
    (s.dataAddr (eaB b s)).toNat = s.db.toNat * 65536 + (s.reg b).toNat ∧
    t.mem.read (s.dataAddr (eaB b s)) = s.reg src ∧ StoresOnly (s.dataAddr (eaB b s)) s t)

/-- R124 and R125: the indexed stores, whose sum or difference wraps inside the bank `DB`, wherever MemMap
admits the store; the words. The wrap is R42's, derived there (D21, log 14). -/
def Obligations.StoreIndexed : Prop :=
  RowIs 0xC01F#16 0x0019#16 (fun w => .stadd (regAt w 11) (regAt w 8) (regAt w 5)) ∧
  RowIs 0xC01F#16 0x001A#16 (fun w => .stsub (regAt w 11) (regAt w 8) (regAt w 5)) ∧
  (∀ (src a b : Reg) (s : State), admits s.platform .store (s.dataAddr (eaSum a b s)) = true →
    ∃ t, exec (.stadd src a b) s = .next t ∧
    (s.dataAddr (eaSum a b s)).toNat
      = s.db.toNat * 65536 + ((s.reg a).toNat + (s.reg b).toNat) % 65536 ∧
    t.mem.read (s.dataAddr (eaSum a b s)) = s.reg src ∧
    StoresOnly (s.dataAddr (eaSum a b s)) s t) ∧
  (∀ (src a b : Reg) (s : State), admits s.platform .store (s.dataAddr (eaDiff a b s)) = true →
    ∃ t, exec (.stsub src a b) s = .next t ∧
    ((s.dataAddr (eaDiff a b s)).toNat : Int)
      = s.db.toNat * 65536 + ((s.reg a).toNat - (s.reg b).toNat : Int) % 65536 ∧
    t.mem.read (s.dataAddr (eaDiff a b s)) = s.reg src ∧
    StoresOnly (s.dataAddr (eaDiff a b s)) s t)

/-! ## Type 1: immediates -/

/-- R141, R144, R145 and R146: the literal is zero-extended, so `movi` and `andi` clear the high byte and
`ori` and `xori` keep it; the words. -/
def Obligations.MoveAndLogicalImmediates : Prop :=
  RowIs 0xC007#16 0x4000#16 (fun w => .movi (regAt w 11) (w.extractLsb' 3 8)) ∧
  RowIs 0xC007#16 0x4003#16 (fun w => .andi (regAt w 11) (w.extractLsb' 3 8)) ∧
  RowIs 0xC007#16 0x4004#16 (fun w => .ori (regAt w 11) (w.extractLsb' 3 8)) ∧
  RowIs 0xC007#16 0x4005#16 (fun w => .xori (regAt w 11) (w.extractLsb' 3 8)) ∧
  (∀ (n : Reg) (imm : Byte) (s : State), ∃ t, exec (.movi n imm) s = .next t ∧
    (t.reg n).toNat = imm.toNat ∧ WritesOnly n s t) ∧
  (∀ (n : Reg) (imm : Byte) (s : State), ∃ t, exec (.andi n imm) s = .next t ∧
    WritesOnly n s t ∧
    ∀ k < 16, (t.reg n).getLsbD k = (decide (k < 8) && (s.reg n).getLsbD k && imm.getLsbD k)) ∧
  (∀ (n : Reg) (imm : Byte) (s : State), ∃ t, exec (.ori n imm) s = .next t ∧
    WritesOnly n s t ∧
    ∀ k < 16, (t.reg n).getLsbD k = ((s.reg n).getLsbD k || (decide (k < 8) && imm.getLsbD k))) ∧
  (∀ (n : Reg) (imm : Byte) (s : State), ∃ t, exec (.xori n imm) s = .next t ∧
    WritesOnly n s t ∧
    ∀ k < 16, (t.reg n).getLsbD k = ((s.reg n).getLsbD k != (decide (k < 8) && imm.getLsbD k)))

/-- R142 and R143: the literal 0 to 255 is added or subtracted modulo 2^16; the words. The wrap is decision
D21 (log 14). -/
def Obligations.AddAndSubImmediates : Prop :=
  RowIs 0xC007#16 0x4001#16 (fun w => .addi (regAt w 11) (w.extractLsb' 3 8)) ∧
  RowIs 0xC007#16 0x4002#16 (fun w => .subi (regAt w 11) (w.extractLsb' 3 8)) ∧
  (∀ (n : Reg) (imm : Byte) (s : State), ∃ t, exec (.addi n imm) s = .next t ∧
    (t.reg n).toNat = ((s.reg n).toNat + imm.toNat) % 65536 ∧ WritesOnly n s t) ∧
  (∀ (n : Reg) (imm : Byte) (s : State), ∃ t, exec (.subi n imm) s = .next t ∧
    ((t.reg n).toNat : Int) = ((s.reg n).toNat - imm.toNat : Int) % 65536 ∧ WritesOnly n s t)

/-- R147: `lsli` shifts left by its field, 000 meaning 8; its words, and the words with any of bits [10:6]
set, which are undefined. -/
def Obligations.LslImmediate : Prop :=
  RowIs 0xC7C7#16 0x4006#16 (fun w => .lsli (regAt w 11) (w.extractLsb' 3 3)) ∧
  (∀ w : Word, w &&& 0xC007#16 = 0x4006#16 → w.extractLsb' 6 5 ≠ 0#5 → ∃ u, decode w = .error u) ∧
  (∀ (n : Reg) (sss : BitVec 3) (s : State), ∃ t, exec (.lsli n sss) s = .next t ∧
    (t.reg n).toNat = ((s.reg n).toNat * 2 ^ shiftBy sss.toNat) % 65536 ∧ WritesOnly n s t)

/-- R148: `asri` shifts right by its field, 000 meaning 8, filling with the sign bit; the words. That the
shift fills with the sign is G2 (log 14). -/
def Obligations.AsrImmediate : Prop :=
  RowIs 0xC7C7#16 0x4007#16 (fun w => .asri (regAt w 11) (w.extractLsb' 3 3)) ∧
  (∀ (n : Reg) (sss : BitVec 3) (s : State), ∃ t, exec (.asri n sss) s = .next t ∧
    WritesOnly n s t ∧
    (∀ k < 16, (t.reg n).getLsbD k = (s.reg n).getLsbD (min (k + shiftBy sss.toNat) 15)) ∧
    (t.reg n).toInt = (s.reg n).toInt / 2 ^ shiftBy sss.toNat)

/-! ## Type 2: jump and branch -/

/-- R160: `jump` continues at `R[b][7:0] : R[a]`, the high byte of the bank register ignored, both registers
read first, `DB` and everything else unchanged; the words. No other instruction writes `IB`. -/
def Obligations.JumpGoesToBankAndAddress : Prop :=
  RowIs 0xF81F#16 0x8000#16 (fun w => .jump (regAt w 5) (regAt w 8)) ∧
  (∀ (b a : Reg) (s : State), ∃ t, exec (.jump b a) s = .next t ∧
    t.ib.toNat = (s.reg b).toNat % 256 ∧ t.pc = s.reg a ∧
    t.fetchAddr.toNat = (s.reg b).toNat % 256 * 65536 + (s.reg a).toNat ∧
    (∀ r, t.reg r = s.reg r) ∧ t.db = s.db ∧ t.halted = s.halted ∧ t.draws = s.draws ∧
    t.platform = s.platform ∧ SameMemory s t) ∧
  (∀ (i : Instr) (s t : State), exec i s = .next t → (∀ b a, i ≠ .jump b a) → t.ib = s.ib)

/-- R162 to R165, over the common rule R161: each conditional branch, taken exactly when its condition on the register holds, adds the
signed offset to the branch's own address modulo 2^16, and is otherwise the increment; it writes
nothing but `PC`; the words. -/
def Obligations.ConditionalBranches : Prop :=
  RowIs 0xC007#16 0x8003#16 (fun w => .bz (regAt w 11) (w.extractLsb' 3 8)) ∧
  RowIs 0xC007#16 0x8004#16 (fun w => .bnz (regAt w 11) (w.extractLsb' 3 8)) ∧
  RowIs 0xC007#16 0x8005#16 (fun w => .bpl (regAt w 11) (w.extractLsb' 3 8)) ∧
  RowIs 0xC007#16 0x8006#16 (fun w => .bmi (regAt w 11) (w.extractLsb' 3 8)) ∧
  (∀ (r : Reg) (off : Byte) (s : State), ∃ t, exec (.bz r off) s = .next t ∧ WritesOnlyPc s t ∧
    (t.pc.toNat : Int)
      = (s.pc.toNat + (if (s.reg r).toNat = 0 then off.toInt else 1)) % 65536) ∧
  (∀ (r : Reg) (off : Byte) (s : State), ∃ t, exec (.bnz r off) s = .next t ∧ WritesOnlyPc s t ∧
    (t.pc.toNat : Int)
      = (s.pc.toNat + (if (s.reg r).toNat = 0 then 1 else off.toInt)) % 65536) ∧
  (∀ (r : Reg) (off : Byte) (s : State), ∃ t, exec (.bpl r off) s = .next t ∧ WritesOnlyPc s t ∧
    (t.pc.toNat : Int)
      = (s.pc.toNat + (if 0 ≤ (s.reg r).toInt then off.toInt else 1)) % 65536) ∧
  (∀ (r : Reg) (off : Byte) (s : State), ∃ t, exec (.bmi r off) s = .next t ∧ WritesOnlyPc s t ∧
    (t.pc.toNat : Int)
      = (s.pc.toNat + (if (s.reg r).toInt < 0 then off.toInt else 1)) % 65536)

/-- R166: `bra` always adds its signed offset to its own address modulo 2^16 and writes nothing but `PC`;
its words, and the words with any of bits [13:11] set, which are undefined. -/
def Obligations.UnconditionalBranch : Prop :=
  RowIs 0xF807#16 0x8007#16 (fun w => .bra (w.extractLsb' 3 8)) ∧
  (∀ w : Word, w &&& 0xC007#16 = 0x8007#16 → w.extractLsb' 11 3 ≠ 0#3 → ∃ u, decode w = .error u) ∧
  (∀ (off : Byte) (s : State), ∃ t, exec (.bra off) s = .next t ∧ WritesOnlyPc s t ∧
    (t.pc.toNat : Int) = (s.pc.toNat + off.toInt) % 65536)

/-! ## Type 3: miscellaneous -/

/-- R180 and R181: `banki` sets `DB` to its literal and `bank` to the low 8 bits of a register; `IB` and
everything else is unchanged, and the very next data address is in the new bank; the words. -/
def Obligations.BankInstructionsSetDb : Prop :=
  RowIs 0xF807#16 0xC001#16 (fun w => .banki (w.extractLsb' 3 8)) ∧
  RowIs 0xFF1F#16 0xC002#16 (fun w => .bank (regAt w 5)) ∧
  (∀ (imm : Byte) (s : State), ∃ t, exec (.banki imm) s = .next t ∧ t.db = imm ∧
    WritesOnlyDb s t ∧ ∀ ea, (t.dataAddr ea).toNat = imm.toNat * 65536 + ea.toNat) ∧
  (∀ (b : Reg) (s : State), ∃ t, exec (.bank b) s = .next t ∧
    t.db.toNat = (s.reg b).toNat % 256 ∧ WritesOnlyDb s t ∧
    ∀ ea, (t.dataAddr ea).toNat = (s.reg b).toNat % 256 * 65536 + ea.toNat)

/-- R182: `swhl` exchanges the bytes of a register into its destination, and applied twice in place it
restores the value; the words. No other Type 3 instruction writes a general register. -/
def Obligations.SwhlSwapsBytes : Prop :=
  RowIs 0xC71F#16 0xC003#16 (fun w => .swhl (regAt w 11) (regAt w 5)) ∧
  (∀ (d b : Reg) (s : State), ∃ t, exec (.swhl d b) s = .next t ∧ WritesOnly d s t ∧
    (t.reg d).toNat = (s.reg b).toNat % 256 * 256 + (s.reg b).toNat / 256) ∧
  (∀ (d : Reg) (s : State), ∃ t u, exec (.swhl d d) s = .next t ∧ exec (.swhl d d) t = .next u ∧
    u.reg d = s.reg d) ∧
  (∀ (i : Instr) (s t : State), (∃ imm, i = .banki imm) ∨ (∃ b, i = .bank b) ∨ i = .halt →
    exec i s = .next t → ∀ r, t.reg r = s.reg r)

/-- R183: `halt` sets the halt latch and changes nothing else, so that no further step is made; the word.
That `PC` stays is decision D15 (log 10). -/
def Obligations.HaltSetsTheLatch : Prop :=
  RowIs 0xFFFF#16 0xC007#16 (fun _ => .halt) ∧
  (∀ s : State, ∃ t, exec .halt s = .next t ∧ t = { s with halted := true } ∧
    step t = .fault .halted)

/-! ## The ALU -/

/-- R97: a shift is by the low three bits of B, 0 read as 8, hence by 1 to 8; the other bits of B are
ignored by both shifts. -/
def Obligations.ShiftAmountIsLowThreeBits : Prop :=
  (∀ y : Word, shiftAmount y = (if y.toNat % 8 = 0 then 8 else y.toNat % 8) ∧
    1 ≤ shiftAmount y ∧ shiftAmount y ≤ 8) ∧
  (∀ x y z : Word, y.toNat % 8 = z.toNat % 8 →
    alu .lsl x y = alu .lsl x z ∧ alu .asr x y = alu .asr x z)

/-- R98: bit i of LSL is bit i - n of A, and 0 below n. -/
def Obligations.LslBitByBit : Prop :=
  ∀ x y : Word, ∀ k < 16,
    (alu .lsl x y).getLsbD k
      = if shiftBy y.toNat ≤ k then x.getLsbD (k - shiftBy y.toNat) else false

/-- R94, R95 and R96: the bitwise operations, and NOT as the exclusive OR with 0xFFFF. -/
def Obligations.BitwiseOperations : Prop :=
  (∀ x y : Word, ∀ k < 16,
    ((alu .and x y).getLsbD k = true ↔ x.getLsbD k = true ∧ y.getLsbD k = true) ∧
    ((alu .or x y).getLsbD k = true ↔ x.getLsbD k = true ∨ y.getLsbD k = true) ∧
    ((alu .xor x y).getLsbD k = true ↔ x.getLsbD k ≠ y.getLsbD k)) ∧
  (∀ x : Word, ∀ k < 16, (alu .xor x 0xFFFF#16).getLsbD k = !x.getLsbD k)

/-- R100 and R101, with R91: the four B codes give B whatever A holds; SB exchanges the bytes of B whatever A
holds and is its own inverse. The codes are those of the ALU table. -/
def Obligations.BAndSbOperations : Prop :=
  (aluOpOfCode 0b0000#4 = some .b ∧ aluOpOfCode 0b1000#4 = some .bJump ∧
    aluOpOfCode 0b1001#4 = some .bBanki ∧ aluOpOfCode 0b1010#4 = some .bBank ∧
    aluOpOfCode 0b1011#4 = some .sb) ∧
  (∀ x y : Word, alu .b x y = y ∧ alu .bJump x y = y ∧ alu .bBanki x y = y ∧ alu .bBank x y = y) ∧
  (∀ x y : Word, (alu .sb x y).toNat = y.toNat % 256 * 256 + y.toNat / 256) ∧
  (∀ x y : Word, alu .sb x (alu .sb x y) = y)

/-- R63 and R102: the code an instruction's word presents, `w[15] : w[2:0]`, is that of the operation its
rule uses; `bz`, `bnz`, `bpl`, `bmi`, `bra` and `halt` present 1011 to 1111 and use none, and 1100 to
1111 have no operation (log 16). -/
def Obligations.WordPresentsItsAluCode : Prop :=
  (∀ (i : Instr) (op : AluOp), aluOpOf i = some op → aluOpOfCode (aluCode (encode i)) = some op) ∧
  (∀ (r : Reg) (off : Byte),
    aluCode (encode (.bz r off)) = 0b1011#4 ∧ aluCode (encode (.bnz r off)) = 0b1100#4 ∧
    aluCode (encode (.bpl r off)) = 0b1101#4 ∧ aluCode (encode (.bmi r off)) = 0b1110#4 ∧
    aluCode (encode (.bra off)) = 0b1111#4) ∧
  aluCode (encode .halt) = 0b1111#4 ∧
  (∀ code : BitVec 4, aluOpOfCode code = none ↔ 0b1100#4 ≤ code)

/-! ## Memory -/

/-- R44: a write gives its word the value and leaves every other word unchanged, and no instruction but a
store writes memory. -/
def Obligations.MemWriteChangesOneWord : Prop :=
  (∀ (m : Memory) (a : Addr) (v : Word),
    (m.write a v).read a = v ∧ ∀ a', a' ≠ a → (m.write a v).read a' = m.read a') ∧
  (∀ (i : Instr) (s t : State), exec i s = .next t → isStore i = false → t.mem = s.mem)

/-- Two memories in the canonical form that read alike at each of the 2^24 addresses are the same data (R40;
the form is the model's, log 2). -/
def Obligations.CanonicalMemoriesAreEqual : Prop :=
  ∀ m n : Memory, m.wf = true → n.wf = true → (∀ a : Addr, m.read a = n.read a) → m = n

/-- A load from the address just stored to gives the stored value, in each of the three address forms, wherever
MemMap admits both accesses (R48, R51; the ordering is decision D9, log 11). -/
def Obligations.LoadGivesLastStore : Prop :=
  (∀ (src b d : Reg) (s : State), admits s.platform .store (s.dataAddr (eaB b s)) = true →
    admits s.platform .load (s.dataAddr (eaB b s)) = true → ∃ t u, exec (.st src b) s = .next t ∧
    exec (.ld d b) t = .next u ∧ u.reg d = s.reg src) ∧
  (∀ (src a b d : Reg) (s : State), admits s.platform .store (s.dataAddr (eaSum a b s)) = true →
    admits s.platform .load (s.dataAddr (eaSum a b s)) = true → ∃ t u, exec (.stadd src a b) s = .next t ∧
    exec (.ldadd d a b) t = .next u ∧ u.reg d = s.reg src) ∧
  (∀ (src a b d : Reg) (s : State), admits s.platform .store (s.dataAddr (eaDiff a b s)) = true →
    admits s.platform .load (s.dataAddr (eaDiff a b s)) = true → ∃ t u, exec (.stsub src a b) s = .next t ∧
    exec (.ldsub d a b) t = .next u ∧ u.reg d = s.reg src)

/-- A word stored over the next instruction, by any of the three stores, is the word the next step fetches
(R53, R225; decisions D11 and D19, log 11). -/
def Obligations.StoredWordIsFetchedNext : Prop :=
  ∀ (src a b : Reg) (s t : State) (i : Instr), s.halted = false →
    admits s.platform .fetch t.fetchAddr = true → decode (s.reg src) = .ok i →
    (exec (.st src b) s = .next t → s.dataAddr (eaB b s) = t.fetchAddr → step t = exec i t) ∧
    (exec (.stadd src a b) s = .next t → s.dataAddr (eaSum a b s) = t.fetchAddr →
      step t = exec i t) ∧
    (exec (.stsub src a b) s = .next t → s.dataAddr (eaDiff a b s) = t.fetchAddr →
      step t = exec i t)

/-- What MemMap admits (R49, D8; that the first region holding an address rules, and that a device region
admits nothing, is the model's, log 9): everything in storage, fetches and loads in a read-only region,
nothing in a device or an absent region, nothing outside every region. -/
def Obligations.MemMapAdmits : Prop :=
  (∀ (p : Platform) (before after : List Region) (r : Region) (k : Access) (a : Addr),
    p.memMap = before ++ r :: after → (∀ q ∈ before, ¬ InRegion q a) → InRegion r a →
    (admits p k a = true ↔ r.kind = .storage ∨ r.kind = .readOnly ∧ k ≠ .store)) ∧
  (∀ (p : Platform) (k : Access) (a : Addr), (∀ r ∈ p.memMap, ¬ InRegion r a) →
    admits p k a = false) ∧
  (∀ (p : Platform) (k : Access) (a : Addr), p.memMap = Config.memMap → admits p k a = true)

/-- An instruction completes exactly where MemMap admits its data access, or it makes none; otherwise it makes
no step, and neither does a running CPU whose fetch is not admitted (R49, D8; the fault's name is the
model's, log 9). -/
def Obligations.NotAdmittedAccessHasNoStep : Prop :=
  (∀ (i : Instr) (s : State), dataAdmitted s i = true ↔ ∃ t, exec i s = .next t) ∧
  (∀ (i : Instr) (s : State) (k : Access) (a : Addr), dataAccess s i = some (k, a) →
    admits s.platform k a = false → exec i s = .fault (.notAdmitted k a)) ∧
  (∀ s : State, s.halted = false → admits s.platform .fetch s.fetchAddr = false →
    step s = .fault (.notAdmitted .fetch s.fetchAddr))

/-- Every step keeps memory in its canonical form, from every state that has it, and keeps the parameters the
machine was built with (R6, R40, R44; the form is the model's, log 2, and so is where the parameters
stand, log 19). -/
def Obligations.StepKeepsInvariant : Prop :=
  ∀ s t : State, s.Inv → step s = .next t → t.Inv ∧ t.platform = s.platform

/-- Memory has its canonical form after reset, and the host's reset and loads keep it (R221, D20; the form is
the model's, log 2). -/
def Obligations.ResetHasInvariant : Prop :=
  State.reset.Inv ∧
  (∀ (s : State) (regs : Vector Word 8) (db : Byte), s.Inv → (s.hostReset regs db).Inv) ∧
  (∀ (s : State) (a : Addr) (v : Word), s.Inv → (s.hostStore a v).Inv)

/-! ## The whole machine -/

/-- R24: every instruction ends by setting `PC` in exactly one of four ways: the increment, the taken
branch, the jump, which also sets `IB`, or the halt. That nothing else changes `IB` is R25 and R27; the
increment at 0xFFFF is decision D3 (log 7), and `PC` kept by `halt` is decision D15 (log 10). -/
def Obligations.PcIsSetInFourWays : Prop :=
  ∀ (i : Instr) (s t : State), exec i s = .next t → t.pc = nextPc s i ∧ t.ib = nextIb s i

/-- After the last word of a bank the sequential increment goes to the first word of the same bank: no
instruction but `jump` leaves its bank (R25; decision D3, log 7). -/
def Obligations.IncrementWrapsInBank : Prop :=
  ∀ (i : Instr) (s t : State), exec i s = .next t → s.pc = 0xFFFF#16 → nextPc s i = s.pc + 1#16 →
    (∀ b a, i ≠ .jump b a) → t.pc = 0x0000#16 ∧ t.ib = s.ib

/-- `DB` is written by `banki` and `bank` only (R28), and a value in `DB` shows in nothing but `DB` itself
unless a load or a store is executed: no instruction copies it to a register (R28, N16). -/
def Obligations.DbIsReadOnlyByLoadsAndStores : Prop :=
  (∀ (i : Instr) (s t : State), exec i s = .next t → t.db = nextDb s i) ∧
  (∀ (i : Instr) (s : State) (db : Byte), usesDb i = false →
    ∃ t u, exec i s = .next t ∧ exec i { s with db := db } = .next u ∧
      u.regs = t.regs ∧ u.pc = t.pc ∧ u.ib = t.ib ∧ u.halted = t.halted ∧ u.mem = t.mem)

/-- The halt latch is set by `halt` and by nothing else, and no step clears it (R31, derived there). -/
def Obligations.OnlyHaltSetsTheLatch : Prop :=
  (∀ (i : Instr) (s t : State), exec i s = .next t →
    (t.halted = true ↔ s.halted = true ∨ i = .halt)) ∧
  (∀ s t : State, step s = .next t → (t.halted = true ↔ s.mem.read s.fetchAddr = 0xC007#16))

/-- An instruction writes no general register but its destination (R21). -/
def Obligations.OnlyTheDestinationIsWritten : Prop :=
  ∀ (i : Instr) (s t : State) (r : Reg), exec i s = .next t → destOf i ≠ some r →
    t.reg r = s.reg r

/-- An instruction reads no general register but its sources: what any other register holds shows in nothing
but that register (R21). -/
def Obligations.OnlyTheSourcesAreRead : Prop :=
  ∀ (i : Instr) (s : State) (r : Reg) (v : Word), r ∉ sourcesOf i →
    ∀ t, exec i s = .next t → ∃ u, exec i (s.setReg r v) = .next u ∧
      (∀ q, q ≠ r → u.reg q = t.reg q) ∧ u.pc = t.pc ∧ u.ib = t.ib ∧ u.db = t.db ∧
      u.halted = t.halted ∧ u.mem = t.mem ∧ u.draws = t.draws

/-- The draw shows in nothing but the high byte of the register `movib` writes, whatever it is (R119;
decision D4, log 6). The draw counter is the model's own. -/
def Obligations.DrawShowsOnlyInMovibHighByte : Prop :=
  ∀ (i : Instr) (s t : State) (n : Nat), exec i s = .next t → ∃ u,
    exec i { s with draws := n } = .next u ∧
    (∀ r, (∀ c, i = .movib c → r ≠ c) → u.reg r = t.reg r) ∧
    (∀ r, (u.reg r).extractLsb' 0 8 = (t.reg r).extractLsb' 0 8) ∧
    u.pc = t.pc ∧ u.ib = t.ib ∧ u.db = t.db ∧ u.halted = t.halted ∧ u.mem = t.mem

/-- `banki` and `jump` reach each of the 2^24 addresses, whatever the state: the data address after a `banki`
and the fetch address after a `jump` can be any (R50, R46). -/
def Obligations.EveryWordIsReachable : Prop :=
  ∀ (s : State) (a : Addr) (q r : Reg), q ≠ r →
    (∃ t, exec (.banki (a.extractLsb' 16 8)) s = .next t ∧ t.dataAddr (a.extractLsb' 0 16) = a) ∧
    (∃ t, exec (.jump q r) ((s.setReg q ((a.extractLsb' 16 8).setWidth 16)).setReg r
        (a.extractLsb' 0 16)) = .next t ∧ t.fetchAddr = a)

/-- The software return of R167: a `jump` through the registers that `movib` and the `movpc` after it wrote
goes back to the `movpc`, from any bank and for every draw. -/
def Obligations.JumpReturnsThroughSavedAddress : Prop :=
  ∀ (b c : Reg) (s : State), b ≠ c → ∃ t u, exec (.movib b) s = .next t ∧
    exec (.movpc c) t = .next u ∧
    ∀ v : State, v.reg b = u.reg b → v.reg c = u.reg c →
      ∃ x, exec (.jump b c) v = .next x ∧ x.fetchAddr = t.fetchAddr

/-- The sequence R81 offers for a 16-bit constant (D18): `movi` with the high byte, `swhl`, `ori` with the low
byte leave the constant in the register. -/
def Obligations.ConstantBuiltInThreeSteps : Prop :=
  ∀ (n : Reg) (v : Word) (s : State), ∃ t u x,
    exec (.movi n (v.extractLsb' 8 8)) s = .next t ∧ exec (.swhl n n) t = .next u ∧
    exec (.ori n (v.extractLsb' 0 8)) u = .next x ∧ x.reg n = v ∧ ∀ r, r ≠ n → x.reg r = s.reg r

/-! ## Reset -/

/-- The state after reset, for every value of the OPEN parameters and of what the spec leaves unknown: running,
memory InitialMemory, the first fetch at RESET_IB : RESET_PC (R221, R222). `State.reset` is that state
at the spec's defaults, so that its first fetch is at 0x000000 (decisions D5 and D8, log 4, log 9), and
at an InitialMemory with no word listed, which is the model's choice (log 2). What its registers and
`DB` hold is not said here (log 3). -/
def Obligations.ResetState : Prop :=
  (∀ (p : Platform) (regs : Vector Word 8) (db : Byte) (mem : Memory),
    (State.resetOn p regs db mem).halted = false ∧ (State.resetOn p regs db mem).mem = mem ∧
    (State.resetOn p regs db mem).pc = p.resetPc ∧ (State.resetOn p regs db mem).ib = p.resetIb ∧
    (State.resetOn p regs db mem).platform = p ∧
    (State.resetOn p regs db mem).fetchAddr.toNat
      = p.resetIb.toNat * 65536 + p.resetPc.toNat) ∧
  (∃ regs db, State.reset = State.resetOn Config.platform regs db []) ∧
  State.reset.pc = 0x0000#16 ∧ State.reset.ib = 0x00#8 ∧ State.reset.fetchAddr = 0x000000#24

/-- Reset in any state, halted or running, clears the latch, keeps memory and the machine's parameters, and
makes the first fetch at its RESET_IB : RESET_PC, whatever the registers and `DB` come to hold (R210,
R220 to R222; decisions D5, D6 and D22, log 4, log 13). -/
def Obligations.HostResetRestarts : Prop :=
  ∀ (s : State) (regs : Vector Word 8) (db : Byte),
    (s.hostReset regs db).halted = false ∧ SameMemory s (s.hostReset regs db) ∧
    (s.hostReset regs db).platform = s.platform ∧
    (s.hostReset regs db).fetchAddr.toNat
      = s.platform.resetIb.toNat * 65536 + s.platform.resetPc.toNat ∧
    (∀ i, admits s.platform .fetch (s.hostReset regs db).fetchAddr = true →
      decode (s.mem.read (s.hostReset regs db).fetchAddr) = .ok i →
      step (s.hostReset regs db) = exec i (s.hostReset regs db))

/-! ## Runs -/

/-- A run from a running CPU ends exactly at the step that executes `halt`: the state before fetched 0xC007,
and the final state is that state with the latch set (R184; decisions D15 and D20, log 10). -/
def Obligations.RunEndsAtHalt : Prop :=
  ∀ (n : Nat) (s t : State), s.halted = false → RunEnds s n t →
    ∃ k u, n = k + 1 ∧ runFor k s = .next u ∧ u.halted = false ∧
      u.mem.read u.fetchAddr = 0xC007#16 ∧ t = { u with halted := true }

/-- A run has one end: neither its length nor its final state can differ, since a halted CPU makes no step
(R184, R201; decisions D13 and D15, log 10). -/
def Obligations.RunHasOneEnd : Prop :=
  ∀ (n m : Nat) (s t u : State), RunEnds s n t → RunEnds s m u → n = m ∧ t = u

/-- A refused run is not a finished run: a run that reaches an undefined word ends at no length (R78, R184;
decision D2, log 8). -/
def Obligations.RefusedRunNeverEnds : Prop :=
  ∀ (n m : Nat) (s t : State), RunRefused s n → ¬ RunEnds s m t
end

