-- ==== Sys2Proof/Laws/Decode.lean ====
section
/-! SUPPORT. The fields of a packed word, and a word from its fields, once: what proofs about the decoder and the encoder cite. -/

namespace Sys2Proof

@[simp] theorem regOfBits_bitsOfReg (r : Reg) : regOfBits (bitsOfReg r) = r := rfl

@[simp] theorem bitsOfReg_regOfBits (v : BitVec 3) : bitsOfReg (regOfBits v) = v := rfl

@[simp] theorem bitsOfReg_eq_zero (r : Reg) : bitsOfReg r = 0#3 ↔ r = 0 := by
  revert r; decide

theorem getLsbD_packRegs (ty : BitVec 2) (c a b : BitVec 3) (low : BitVec 5) (k : Nat) :
    (packRegs ty c a b low).getLsbD k
      = if k < 5 then low.getLsbD k else if k - 5 < 3 then b.getLsbD (k - 5)
        else if k - 5 - 3 < 3 then a.getLsbD (k - 5 - 3)
        else if k - 5 - 3 - 3 < 3 then c.getLsbD (k - 5 - 3 - 3)
        else ty.getLsbD (k - 5 - 3 - 3 - 3) := by
  show (ty ++ c ++ a ++ b ++ low : BitVec (2 + 3 + 3 + 3 + 5)).getLsbD k = _
  simp only [BitVec.getLsbD_append]

theorem getElem_packRegs (ty : BitVec 2) (c a b : BitVec 3) (low : BitVec 5) (k : Nat)
    (h : k < 16) :
    (packRegs ty c a b low)[k]
      = if k < 5 then low.getLsbD k else if k - 5 < 3 then b.getLsbD (k - 5)
        else if k - 5 - 3 < 3 then a.getLsbD (k - 5 - 3)
        else if k - 5 - 3 - 3 < 3 then c.getLsbD (k - 5 - 3 - 3)
        else ty.getLsbD (k - 5 - 3 - 3 - 3) := by
  rw [← BitVec.getLsbD_eq_getElem, getLsbD_packRegs]

theorem getLsbD_packImm (ty : BitVec 2) (c : BitVec 3) (imm : Byte) (op : BitVec 3) (k : Nat) :
    (packImm ty c imm op).getLsbD k
      = if k < 3 then op.getLsbD k else if k - 3 < 8 then imm.getLsbD (k - 3)
        else if k - 3 - 8 < 3 then c.getLsbD (k - 3 - 8)
        else ty.getLsbD (k - 3 - 8 - 3) := by
  show (ty ++ c ++ imm ++ op : BitVec (2 + 3 + 8 + 3)).getLsbD k = _
  simp only [BitVec.getLsbD_append]

theorem getElem_packImm (ty : BitVec 2) (c : BitVec 3) (imm : Byte) (op : BitVec 3) (k : Nat)
    (h : k < 16) :
    (packImm ty c imm op)[k]
      = if k < 3 then op.getLsbD k else if k - 3 < 8 then imm.getLsbD (k - 3)
        else if k - 3 - 8 < 3 then c.getLsbD (k - 3 - 8)
        else ty.getLsbD (k - 3 - 8 - 3) := by
  rw [← BitVec.getLsbD_eq_getElem, getLsbD_packImm]

theorem getLsbD_packMove (c : BitVec 3) (low : BitVec 11) (k : Nat) :
    (packMove c low).getLsbD k
      = if k < 11 then low.getLsbD k else if k - 11 < 3 then c.getLsbD (k - 11)
        else (0b00#2).getLsbD (k - 11 - 3) := by
  show (0b00#2 ++ c ++ low : BitVec (2 + 3 + 11)).getLsbD k = _
  simp only [BitVec.getLsbD_append]

theorem getElem_packMove (c : BitVec 3) (low : BitVec 11) (k : Nat)
    (h : k < 16) :
    (packMove c low)[k]
      = if k < 11 then low.getLsbD k else if k - 11 < 3 then c.getLsbD (k - 11)
        else (0b00#2).getLsbD (k - 11 - 3) := by
  rw [← BitVec.getLsbD_eq_getElem, getLsbD_packMove]

@[simp] theorem typeField_packRegs (ty : BitVec 2) (c a b : BitVec 3) (low : BitVec 5) :
    typeField (packRegs ty c a b low) = ty := by
  refine BitVec.eq_of_getLsbD_eq fun k hk => ?_
  interval_cases k <;> simp [typeField, getElem_packRegs]

@[simp] theorem cField_packRegs (ty : BitVec 2) (c a b : BitVec 3) (low : BitVec 5) :
    cField (packRegs ty c a b low) = c := by
  refine BitVec.eq_of_getLsbD_eq fun k hk => ?_
  interval_cases k <;> simp [cField, getElem_packRegs]

@[simp] theorem aField_packRegs (ty : BitVec 2) (c a b : BitVec 3) (low : BitVec 5) :
    aField (packRegs ty c a b low) = a := by
  refine BitVec.eq_of_getLsbD_eq fun k hk => ?_
  interval_cases k <;> simp [aField, getElem_packRegs]

@[simp] theorem bField_packRegs (ty : BitVec 2) (c a b : BitVec 3) (low : BitVec 5) :
    bField (packRegs ty c a b low) = b := by
  refine BitVec.eq_of_getLsbD_eq fun k hk => ?_
  interval_cases k <;> simp [bField, getElem_packRegs]

@[simp] theorem modeField_packRegs (ty : BitVec 2) (c a b : BitVec 3) (low : BitVec 5) :
    modeField (packRegs ty c a b low) = low.extractLsb' 3 2 := by
  refine BitVec.eq_of_getLsbD_eq fun k hk => ?_
  interval_cases k <;> simp [modeField, getElem_packRegs]

@[simp] theorem opField_packRegs (ty : BitVec 2) (c a b : BitVec 3) (low : BitVec 5) :
    opField (packRegs ty c a b low) = low.extractLsb' 0 3 := by
  refine BitVec.eq_of_getLsbD_eq fun k hk => ?_
  interval_cases k <;> simp [opField, getElem_packRegs]

@[simp] theorem typeField_packImm (ty : BitVec 2) (c : BitVec 3) (imm : Byte) (op : BitVec 3) :
    typeField (packImm ty c imm op) = ty := by
  refine BitVec.eq_of_getLsbD_eq fun k hk => ?_
  interval_cases k <;> simp [typeField, getElem_packImm]

@[simp] theorem cField_packImm (ty : BitVec 2) (c : BitVec 3) (imm : Byte) (op : BitVec 3) :
    cField (packImm ty c imm op) = c := by
  refine BitVec.eq_of_getLsbD_eq fun k hk => ?_
  interval_cases k <;> simp [cField, getElem_packImm]

@[simp] theorem immField_packImm (ty : BitVec 2) (c : BitVec 3) (imm : Byte) (op : BitVec 3) :
    immField (packImm ty c imm op) = imm := by
  refine BitVec.eq_of_getLsbD_eq fun k hk => ?_
  interval_cases k <;> simp [immField, getElem_packImm]

@[simp] theorem opField_packImm (ty : BitVec 2) (c : BitVec 3) (imm : Byte) (op : BitVec 3) :
    opField (packImm ty c imm op) = op := by
  refine BitVec.eq_of_getLsbD_eq fun k hk => ?_
  interval_cases k <;> simp [opField, getElem_packImm]

@[simp] theorem shiftField_packImm (ty : BitVec 2) (c : BitVec 3) (imm : Byte) (op : BitVec 3) :
    shiftField (packImm ty c imm op) = imm.extractLsb' 0 3 := by
  refine BitVec.eq_of_getLsbD_eq fun k hk => ?_
  interval_cases k <;> simp [shiftField, getElem_packImm]

@[simp] theorem shiftHighField_packImm (ty : BitVec 2) (c : BitVec 3) (imm : Byte) (op : BitVec 3) :
    shiftHighField (packImm ty c imm op) = imm.extractLsb' 3 5 := by
  refine BitVec.eq_of_getLsbD_eq fun k hk => ?_
  interval_cases k <;> simp [shiftHighField, getElem_packImm]

@[simp] theorem typeField_packMove (c : BitVec 3) (low : BitVec 11) :
    typeField (packMove c low) = 0b00#2 := by
  refine BitVec.eq_of_getLsbD_eq fun k hk => ?_
  interval_cases k <;> simp [typeField, getElem_packMove]

@[simp] theorem cField_packMove (c : BitVec 3) (low : BitVec 11) :
    cField (packMove c low) = c := by
  refine BitVec.eq_of_getLsbD_eq fun k hk => ?_
  interval_cases k <;> simp [cField, getElem_packMove]

@[simp] theorem moveField_packMove (c : BitVec 3) (low : BitVec 11) :
    moveField (packMove c low) = low := by
  refine BitVec.eq_of_getLsbD_eq fun k hk => ?_
  interval_cases k <;> simp [moveField, getElem_packMove]

/-- Bits [4:0] of a packed word stand at the foot of its bits [10:0]. -/
@[simp] theorem moveField_packRegs_low (ty : BitVec 2) (c a b : BitVec 3) (low : BitVec 5) :
    (moveField (packRegs ty c a b low)).extractLsb' 0 5 = low := by
  refine BitVec.eq_of_getLsbD_eq fun k hk => ?_
  interval_cases k <;> simp [moveField, getElem_packRegs]

@[simp] theorem shiftField_shiftImm (sss : BitVec 3) : (shiftImm sss).extractLsb' 0 3 = sss := by
  revert sss; decide

@[simp] theorem shiftHighField_shiftImm (sss : BitVec 3) :
    (shiftImm sss).extractLsb' 3 5 = 0b00000#5 := by
  revert sss; decide

/-- A word is the packing of its register fields. -/
theorem packRegs_fields (w : Word) :
    packRegs (typeField w) (cField w) (aField w) (bField w) (w.extractLsb' 0 5) = w := by
  refine BitVec.eq_of_getLsbD_eq fun k hk => ?_
  interval_cases k <;>
    simp [getElem_packRegs, typeField, cField, aField, bField]

/-- A word is the packing of its immediate fields. -/
theorem packImm_fields (w : Word) :
    packImm (typeField w) (cField w) (immField w) (opField w) = w := by
  refine BitVec.eq_of_getLsbD_eq fun k hk => ?_
  interval_cases k <;>
    simp [getElem_packImm, typeField, cField, immField, opField]

end Sys2Proof
end

