-- ==== Sys2Proof/Laws/Memory.lean ====
section
/-! SUPPORT. The laws of memory: what a read gives after a write, and that every memory operation keeps the canonical form. -/

namespace Sys2Proof.Machine

open Sys2Proof

theorem readKey_erase_same (m : Memory) (key : Nat) :
    (m.erase key).readKey key = Config.unlistedWord := by
  induction m with
  | nil => rfl
  | cons p rest ih =>
    obtain ⟨k, w⟩ := p
    by_cases h : k = key <;> simp [Memory.erase, Memory.readKey, h, ih]

theorem readKey_erase_ne (m : Memory) {key key' : Nat} (h : key' ≠ key) :
    (m.erase key).readKey key' = m.readKey key' := by
  induction m with
  | nil => rfl
  | cons p rest ih =>
    obtain ⟨k, w⟩ := p
    by_cases hk : k = key
    · simp [Memory.erase, Memory.readKey, hk, ih, Ne.symm h]
    · by_cases hk' : k = key' <;> simp [Memory.erase, Memory.readKey, hk, hk', ih, h]

theorem readKey_insert_ne (m : Memory) {key key' : Nat} (v : Word) (h : key' ≠ key) :
    (m.insert key v).readKey key' = m.readKey key' := by
  induction m with
  | nil => simp [Memory.insert, Memory.readKey, Ne.symm h]
  | cons p rest ih =>
    obtain ⟨k, w⟩ := p
    by_cases hk : key < k <;> simp [Memory.insert, Memory.readKey, hk, ih, Ne.symm h]

theorem readKey_insert_erase_same (m : Memory) (key : Nat) (v : Word) :
    ((m.erase key).insert key v).readKey key = v := by
  induction m with
  | nil => simp [Memory.erase, Memory.insert, Memory.readKey]
  | cons p rest ih =>
    obtain ⟨k, w⟩ := p
    by_cases hk : k = key
    · simpa [Memory.erase, hk] using ih
    · by_cases hlt : key < k <;>
        simp [Memory.erase, Memory.insert, Memory.readKey, hk, hlt, ih]

/-- A read gives what the last write to the address wrote (R44). -/
@[simp] theorem read_write_same (m : Memory) (a : Addr) (v : Word) : (m.write a v).read a = v := by
  by_cases h : v = Config.unlistedWord
  · simp [Memory.read, Memory.write, h, readKey_erase_same]
  · simp [Memory.read, Memory.write, h, readKey_insert_erase_same]

/-- A write leaves every other word unchanged (R44). -/
@[simp] theorem read_write_ne (m : Memory) {a a' : Addr} (v : Word) (h : a' ≠ a) :
    (m.write a v).read a' = m.read a' := by
  have hk : a'.toNat ≠ a.toNat := fun e => h (BitVec.eq_of_toNat_eq e)
  by_cases hv : v = Config.unlistedWord
  · simp [Memory.read, Memory.write, hv, readKey_erase_ne m hk]
  · simp [Memory.read, Memory.write, hv, readKey_insert_ne _ v hk, readKey_erase_ne m hk]

theorem wfFrom_mono {m : Memory} {lo hi : Nat} (h : lo ≤ hi) (w : m.wfFrom hi = true) :
    m.wfFrom lo = true := by
  cases m with
  | nil => rfl
  | cons p rest =>
    simp only [Memory.wfFrom, Bool.and_eq_true, decide_eq_true_eq] at w ⊢
    exact ⟨⟨⟨by omega, w.1.1.2⟩, w.1.2⟩, w.2⟩

theorem wfFrom_erase {m : Memory} {lo : Nat} (key : Nat) (w : m.wfFrom lo = true) :
    (m.erase key).wfFrom lo = true := by
  induction m generalizing lo with
  | nil => rfl
  | cons p rest ih =>
    obtain ⟨k, v⟩ := p
    simp only [Memory.wfFrom, Bool.and_eq_true, decide_eq_true_eq] at w
    by_cases hk : k = key
    · simpa [Memory.erase, hk] using ih (wfFrom_mono (by omega) w.2)
    · simp [Memory.erase, hk, Memory.wfFrom, w.1.1.1, w.1.1.2, w.1.2, ih w.2]

theorem wfFrom_insert_erase {m : Memory} {lo key : Nat} {v : Word} (hlo : lo ≤ key)
    (hkey : key < 16777216) (hv : v ≠ Config.unlistedWord) (w : m.wfFrom lo = true) :
    ((m.erase key).insert key v).wfFrom lo = true := by
  induction m generalizing lo with
  | nil => simp [Memory.erase, Memory.insert, Memory.wfFrom, hlo, hkey, hv]
  | cons p rest ih =>
    obtain ⟨k, x⟩ := p
    simp only [Memory.wfFrom, Bool.and_eq_true, decide_eq_true_eq, bne_iff_ne] at w
    by_cases hk : k = key
    · simpa [Memory.erase, hk] using ih hlo (wfFrom_mono (by omega) w.2)
    · by_cases hlt : key < k
      · have := wfFrom_erase key (wfFrom_mono (lo := k + 1) (le_refl _) w.2)
        simp [Memory.erase, Memory.insert, Memory.wfFrom, hk, hlt, hlo, hkey, hv, w.1.1.2, w.1.2, this]
      · have := ih (lo := k + 1) (by omega) w.2
        simp [Memory.erase, Memory.insert, Memory.wfFrom, hk, hlt, w.1.1.1, w.1.1.2, w.1.2, this]

/-- The one operation that changes memory keeps the canonical form. -/
theorem wf_write {m : Memory} (a : Addr) (v : Word) (w : m.wf = true) : (m.write a v).wf = true := by
  by_cases h : v = Config.unlistedWord
  · simpa [Memory.write, Memory.wf, h] using wfFrom_erase a.toNat w
  · simpa [Memory.write, Memory.wf, h] using
      wfFrom_insert_erase (Nat.zero_le _) a.isLt h w

/-- Memory after reset, with nothing listed, has the canonical form. -/
theorem wf_reset : State.reset.mem.wf = true := rfl

end Sys2Proof.Machine
end

