-- ==== Sys2Proof/Laws/State.lean ====
section
/-! SUPPORT. What each update of State does to each field: one lemma per field per update. -/

namespace Sys2Proof.Machine

open Sys2Proof

variable (s : State)

@[simp] theorem reg_setReg_same (r : Reg) (v : Word) : (s.setReg r v).reg r = v := by
  simp [State.reg, State.setReg, Vector.get_eq_getElem]

@[simp] theorem reg_setReg_ne {r q : Reg} (v : Word) (h : q ≠ r) :
    (s.setReg r v).reg q = s.reg q := by
  have : r.val ≠ q.val := fun e => h (Fin.ext e.symm)
  simp [State.reg, State.setReg, Vector.get_eq_getElem, this]

/-- Writing back what a register holds changes nothing, as `nop` does (R126). -/
@[simp] theorem setReg_reg (r : Reg) : s.setReg r (s.reg r) = s := by
  cases s
  simp [State.reg, State.setReg, Vector.get_eq_getElem]

@[simp] theorem pc_setReg (r : Reg) (v : Word) : (s.setReg r v).pc = s.pc := rfl
@[simp] theorem ib_setReg (r : Reg) (v : Word) : (s.setReg r v).ib = s.ib := rfl
@[simp] theorem db_setReg (r : Reg) (v : Word) : (s.setReg r v).db = s.db := rfl
@[simp] theorem halted_setReg (r : Reg) (v : Word) : (s.setReg r v).halted = s.halted := rfl
@[simp] theorem mem_setReg (r : Reg) (v : Word) : (s.setReg r v).mem = s.mem := rfl
@[simp] theorem draws_setReg (r : Reg) (v : Word) : (s.setReg r v).draws = s.draws := rfl
@[simp] theorem platform_setReg (r : Reg) (v : Word) : (s.setReg r v).platform = s.platform := rfl
@[simp] theorem regs_setReg (r : Reg) (v : Word) : (s.setReg r v).regs = s.regs.set r v := rfl

@[simp] theorem regs_advance : (s.advance).regs = s.regs := rfl
@[simp] theorem pc_advance : (s.advance).pc = s.pc + 1#16 := rfl
@[simp] theorem ib_advance : (s.advance).ib = s.ib := rfl
@[simp] theorem db_advance : (s.advance).db = s.db := rfl
@[simp] theorem halted_advance : (s.advance).halted = s.halted := rfl
@[simp] theorem mem_advance : (s.advance).mem = s.mem := rfl
@[simp] theorem draws_advance : (s.advance).draws = s.draws := rfl
@[simp] theorem platform_advance : (s.advance).platform = s.platform := rfl
@[simp] theorem reg_advance (q : Reg) : (s.advance).reg q = s.reg q := rfl

@[simp] theorem regs_branch (off : Byte) : (s.branch off).regs = s.regs := rfl
@[simp] theorem pc_branch (off : Byte) : (s.branch off).pc = s.pc + off.signExtend 16 := rfl
@[simp] theorem ib_branch (off : Byte) : (s.branch off).ib = s.ib := rfl
@[simp] theorem db_branch (off : Byte) : (s.branch off).db = s.db := rfl
@[simp] theorem halted_branch (off : Byte) : (s.branch off).halted = s.halted := rfl
@[simp] theorem mem_branch (off : Byte) : (s.branch off).mem = s.mem := rfl
@[simp] theorem draws_branch (off : Byte) : (s.branch off).draws = s.draws := rfl
@[simp] theorem platform_branch (off : Byte) : (s.branch off).platform = s.platform := rfl
@[simp] theorem reg_branch (off : Byte) (q : Reg) : (s.branch off).reg q = s.reg q := rfl

@[simp] theorem regs_jumpTo (bank : Byte) (addr : Word) : (s.jumpTo bank addr).regs = s.regs := rfl
@[simp] theorem pc_jumpTo (bank : Byte) (addr : Word) : (s.jumpTo bank addr).pc = addr := rfl
@[simp] theorem ib_jumpTo (bank : Byte) (addr : Word) : (s.jumpTo bank addr).ib = bank := rfl
@[simp] theorem db_jumpTo (bank : Byte) (addr : Word) : (s.jumpTo bank addr).db = s.db := rfl
@[simp] theorem halted_jumpTo (bank : Byte) (addr : Word) : (s.jumpTo bank addr).halted = s.halted := rfl
@[simp] theorem mem_jumpTo (bank : Byte) (addr : Word) : (s.jumpTo bank addr).mem = s.mem := rfl
@[simp] theorem draws_jumpTo (bank : Byte) (addr : Word) : (s.jumpTo bank addr).draws = s.draws := rfl
@[simp] theorem platform_jumpTo (bank : Byte) (addr : Word) : (s.jumpTo bank addr).platform = s.platform := rfl
@[simp] theorem reg_jumpTo (bank : Byte) (addr : Word) (q : Reg) : (s.jumpTo bank addr).reg q = s.reg q := rfl

@[simp] theorem regs_setDb (bank : Byte) : (s.setDb bank).regs = s.regs := rfl
@[simp] theorem pc_setDb (bank : Byte) : (s.setDb bank).pc = s.pc := rfl
@[simp] theorem ib_setDb (bank : Byte) : (s.setDb bank).ib = s.ib := rfl
@[simp] theorem db_setDb (bank : Byte) : (s.setDb bank).db = bank := rfl
@[simp] theorem halted_setDb (bank : Byte) : (s.setDb bank).halted = s.halted := rfl
@[simp] theorem mem_setDb (bank : Byte) : (s.setDb bank).mem = s.mem := rfl
@[simp] theorem draws_setDb (bank : Byte) : (s.setDb bank).draws = s.draws := rfl
@[simp] theorem platform_setDb (bank : Byte) : (s.setDb bank).platform = s.platform := rfl
@[simp] theorem reg_setDb (bank : Byte) (q : Reg) : (s.setDb bank).reg q = s.reg q := rfl

@[simp] theorem regs_halt : (s.halt).regs = s.regs := rfl
@[simp] theorem pc_halt : (s.halt).pc = s.pc := rfl
@[simp] theorem ib_halt : (s.halt).ib = s.ib := rfl
@[simp] theorem db_halt : (s.halt).db = s.db := rfl
@[simp] theorem halted_halt : (s.halt).halted = true := rfl
@[simp] theorem mem_halt : (s.halt).mem = s.mem := rfl
@[simp] theorem draws_halt : (s.halt).draws = s.draws := rfl
@[simp] theorem platform_halt : (s.halt).platform = s.platform := rfl
@[simp] theorem reg_halt (q : Reg) : (s.halt).reg q = s.reg q := rfl

@[simp] theorem regs_takeDraw : (s.takeDraw).regs = s.regs := rfl
@[simp] theorem pc_takeDraw : (s.takeDraw).pc = s.pc := rfl
@[simp] theorem ib_takeDraw : (s.takeDraw).ib = s.ib := rfl
@[simp] theorem db_takeDraw : (s.takeDraw).db = s.db := rfl
@[simp] theorem halted_takeDraw : (s.takeDraw).halted = s.halted := rfl
@[simp] theorem mem_takeDraw : (s.takeDraw).mem = s.mem := rfl
@[simp] theorem draws_takeDraw : (s.takeDraw).draws = s.draws + 1 := rfl
@[simp] theorem platform_takeDraw : (s.takeDraw).platform = s.platform := rfl
@[simp] theorem reg_takeDraw (q : Reg) : (s.takeDraw).reg q = s.reg q := rfl

@[simp] theorem regs_hostReset (regs : Vector Word 8) (db : Byte) : (s.hostReset regs db).regs = regs := rfl
@[simp] theorem pc_hostReset (regs : Vector Word 8) (db : Byte) : (s.hostReset regs db).pc = s.platform.resetPc := rfl
@[simp] theorem ib_hostReset (regs : Vector Word 8) (db : Byte) : (s.hostReset regs db).ib = s.platform.resetIb := rfl
@[simp] theorem db_hostReset (regs : Vector Word 8) (db : Byte) : (s.hostReset regs db).db = db := rfl
@[simp] theorem halted_hostReset (regs : Vector Word 8) (db : Byte) : (s.hostReset regs db).halted = false := rfl
@[simp] theorem mem_hostReset (regs : Vector Word 8) (db : Byte) : (s.hostReset regs db).mem = s.mem := rfl
@[simp] theorem draws_hostReset (regs : Vector Word 8) (db : Byte) : (s.hostReset regs db).draws = s.draws := rfl
@[simp] theorem platform_hostReset (regs : Vector Word 8) (db : Byte) : (s.hostReset regs db).platform = s.platform := rfl

@[simp] theorem regs_hostStore (a : Addr) (v : Word) : (s.hostStore a v).regs = s.regs := rfl
@[simp] theorem pc_hostStore (a : Addr) (v : Word) : (s.hostStore a v).pc = s.pc := rfl
@[simp] theorem ib_hostStore (a : Addr) (v : Word) : (s.hostStore a v).ib = s.ib := rfl
@[simp] theorem db_hostStore (a : Addr) (v : Word) : (s.hostStore a v).db = s.db := rfl
@[simp] theorem halted_hostStore (a : Addr) (v : Word) : (s.hostStore a v).halted = s.halted := rfl
@[simp] theorem mem_hostStore (a : Addr) (v : Word) : (s.hostStore a v).mem = s.mem.write a v := rfl
@[simp] theorem draws_hostStore (a : Addr) (v : Word) : (s.hostStore a v).draws = s.draws := rfl
@[simp] theorem platform_hostStore (a : Addr) (v : Word) : (s.hostStore a v).platform = s.platform := rfl
@[simp] theorem reg_hostStore (a : Addr) (v : Word) (q : Reg) : (s.hostStore a v).reg q = s.reg q := rfl

/-! The reset state of R221, field by field. -/

section
variable (p : Platform) (regs : Vector Word 8) (db : Byte) (mem : Memory)

@[simp] theorem regs_resetOn : (State.resetOn p regs db mem).regs = regs := rfl
@[simp] theorem pc_resetOn : (State.resetOn p regs db mem).pc = p.resetPc := rfl
@[simp] theorem ib_resetOn : (State.resetOn p regs db mem).ib = p.resetIb := rfl
@[simp] theorem db_resetOn : (State.resetOn p regs db mem).db = db := rfl
@[simp] theorem halted_resetOn : (State.resetOn p regs db mem).halted = false := rfl
@[simp] theorem mem_resetOn : (State.resetOn p regs db mem).mem = mem := rfl
@[simp] theorem draws_resetOn : (State.resetOn p regs db mem).draws = 0 := rfl
@[simp] theorem platform_resetOn : (State.resetOn p regs db mem).platform = p := rfl

end

end Sys2Proof.Machine
end

