-- ==== Sys2Proof/Laws/Ops.lean ====
section
/-! SUPPORT. What each shared operation can do, once: later proofs cite these and do not unfold the operations. -/

namespace Sys2Proof.Machine

open Sys2Proof

/-- Under the spec's default MemMap every access is admitted (R49, D8). -/
@[simp] theorem admits_default (k : Access) (a : Addr) : admits Config.platform k a = true := by
  have h : a.toNat < 16777216 := a.isLt
  cases k <;> simp [admits, kindIn, kindAdmits, Config.platform, Config.memMap, h]

theorem memRead_eq {k : Access} {s : State} {a : Addr} (h : admits s.platform k a = true) :
    memRead k s a = .ok (s.mem.read a) := by
  simp [memRead, h]

theorem memRead_notAdmitted {k : Access} {s : State} {a : Addr} (h : admits s.platform k a = false) :
    memRead k s a = .error (.notAdmitted k a) := by
  simp [memRead, h]

theorem memWrite_eq {s : State} {a : Addr} (v : Word) (h : admits s.platform .store a = true) :
    memWrite s a v = .ok { s with mem := s.mem.write a v } := by
  simp [memWrite, h]

theorem memWrite_notAdmitted {s : State} {a : Addr} (v : Word)
    (h : admits s.platform .store a = false) : memWrite s a v = .error (.notAdmitted .store a) := by
  simp [memWrite, h]

theorem fetch_eq {s : State} (h : admits s.platform .fetch s.fetchAddr = true) :
    fetch s = .ok (s.mem.read s.fetchAddr) := memRead_eq h

theorem fetch_notAdmitted {s : State} (h : admits s.platform .fetch s.fetchAddr = false) :
    fetch s = .error (.notAdmitted .fetch s.fetchAddr) := memRead_notAdmitted h

@[simp] theorem finishReg_eq (c : Reg) (v : Word) (s : State) :
    finishReg c v s = .next (s.setReg c v).advance := rfl

/-- Everything a load can do: the word at `DB : EA` into the register, or no step (R43, R49). -/
theorem finishLoad_eq (d : Reg) (ea : Word) (s : State) :
    finishLoad d ea s =
      if admits s.platform .load (s.dataAddr ea) then
        .next (s.setReg d (s.mem.read (s.dataAddr ea))).advance
      else .fault (.notAdmitted .load (s.dataAddr ea)) := by
  by_cases h : admits s.platform .load (s.dataAddr ea) = true <;> simp [finishLoad, memRead, h]

/-- Everything a store can do: the register to the word at `DB : EA`, or no step (R44, R49). -/
theorem finishStore_eq (src : Reg) (ea : Word) (s : State) :
    finishStore src ea s =
      if admits s.platform .store (s.dataAddr ea) then
        .next { s with mem := s.mem.write (s.dataAddr ea) (s.reg src), pc := s.pc + 1#16 }
      else .fault (.notAdmitted .store (s.dataAddr ea)) := by
  by_cases h : admits s.platform .store (s.dataAddr ea) = true <;>
    simp [finishStore, memWrite, State.advance, h]

theorem finishBranch_taken {cond : Bool} (off : Byte) (s : State) (h : cond = true) :
    finishBranch cond off s = .next (s.branch off) := by
  simp [finishBranch, h]

theorem finishBranch_untaken {cond : Bool} (off : Byte) (s : State) (h : cond = false) :
    finishBranch cond off s = .next s.advance := by
  simp [finishBranch, h]

/-- The step of a running CPU whose fetch is admitted and whose fetched word decodes (R41). -/
theorem step_decoded {s : State} {i : Instr} (hh : s.halted = false)
    (ha : admits s.platform .fetch s.fetchAddr = true)
    (hd : decode (s.mem.read s.fetchAddr) = .ok i) : step s = exec i s := by
  simp [step, hh, fetch_eq ha, hd]

/-- The step of a running CPU whose fetch is admitted and whose fetched word is undefined (R78). -/
theorem step_undefined {s : State} {u : Undefined} (hh : s.halted = false)
    (ha : admits s.platform .fetch s.fetchAddr = true)
    (hd : decode (s.mem.read s.fetchAddr) = .error u) :
    step s = .refused (.undefinedWord u (s.mem.read s.fetchAddr)) := by
  simp [step, hh, fetch_eq ha, hd]

/-- What a step that answers a next state did: the CPU was running, the fetch was admitted, the fetched word
decodes, and the instruction's meaning gave that state. -/
theorem step_next_cases {s t : State} (h : step s = .next t) :
    s.halted = false ∧ admits s.platform .fetch s.fetchAddr = true ∧
      ∃ i, decode (s.mem.read s.fetchAddr) = .ok i ∧ exec i s = .next t := by
  unfold step at h
  cases hh : s.halted with
  | true => simp [hh] at h
  | false =>
    by_cases ha : admits s.platform .fetch s.fetchAddr = true
    · simp only [hh, fetch_eq ha] at h
      cases hd : decode (s.mem.read s.fetchAddr) with
      | error u => simp [hd] at h
      | ok i => exact ⟨rfl, ha, i, rfl, by simpa [hd] using h⟩
    · simp [hh, fetch_notAdmitted (Bool.not_eq_true _ ▸ ha)] at h

end Sys2Proof.Machine
end

