-- ==== Sys2Proof/Laws/Frames.lean ====
section
/-! SUPPORT. What each shared ending of an instruction leaves unchanged, in the terms of Safety.lean. -/

namespace Sys2Proof.Machine

open Sys2Proof

/-- Writing one register and advancing leaves the rest as it was. -/
theorem writesOnly_setReg_advance (c : Reg) (v : Word) (s : State) :
    WritesOnly c s (s.setReg c v).advance :=
  ⟨fun r h => by simp [h], rfl, ⟨rfl, rfl, rfl, rfl, rfl⟩, fun _ => rfl⟩

/-- Storing one word and advancing leaves the rest as it was. -/
theorem storesOnly_write (a : Addr) (v : Word) (s : State) :
    StoresOnly a s { s with mem := s.mem.write a v, pc := s.pc + 1#16 } :=
  ⟨fun _ => rfl, rfl, ⟨rfl, rfl, rfl, rfl, rfl⟩, fun a' h => by simp [h]⟩

/-- A branch, taken or not, writes nothing but `PC`. -/
theorem writesOnlyPc_branch (cond : Bool) (off : Byte) (s : State) :
    WritesOnlyPc s (if cond then s.branch off else s.advance) := by
  cases cond <;> exact ⟨fun _ => rfl, ⟨rfl, rfl, rfl, rfl, rfl⟩, fun _ => rfl⟩

/-- Setting `DB` and advancing leaves the rest as it was. -/
theorem writesOnlyDb_setDb_advance (bank : Byte) (s : State) :
    WritesOnlyDb s (s.setDb bank).advance :=
  ⟨fun _ => rfl, rfl, rfl, rfl, rfl, rfl, fun _ => rfl⟩

/-- The 24-bit address a bank register and a 16-bit value make, as a number (R23, R42). -/
theorem toNat_bank_append (bank : Byte) (v : Word) :
    (bank ++ v : Addr).toNat = bank.toNat * 65536 + v.toNat := by
  show (bank ++ v : BitVec (8 + 16)).toNat = _
  rw [BitVec.toNat_append, ← Nat.shiftLeft_add_eq_or_of_lt v.isLt, Nat.shiftLeft_eq]

theorem toNat_dataAddr (s : State) (ea : Word) :
    (s.dataAddr ea).toNat = s.db.toNat * 65536 + ea.toNat := toNat_bank_append ..

/-- The low byte of a word made of two bytes: what `movib` puts `IB` in (R119). -/
theorem low_byte_append (x y : Byte) : (x ++ y : Word).extractLsb' 0 8 = y := by
  refine BitVec.eq_of_getLsbD_eq fun k hk => ?_
  show ((x ++ y : BitVec (8 + 8)).extractLsb' 0 8).getLsbD k = _
  rw [BitVec.getLsbD_extractLsb', BitVec.getLsbD_append]
  simp [hk]

/-- Everything an instruction can do with memory: no data access, and then it completes; one load; or one
store (R47). -/
theorem exec_access_cases (i : Instr) (s : State) :
    (dataAccess s i = none ∧ ∃ t, exec i s = .next t) ∨
    (∃ d ea, dataAccess s i = some (.load, s.dataAddr ea) ∧ exec i s = finishLoad d ea s) ∨
    (∃ src ea, dataAccess s i = some (.store, s.dataAddr ea) ∧ exec i s = finishStore src ea s) := by
  cases i
  all_goals first
    | exact .inl ⟨rfl, _, rfl⟩
    | exact .inr (.inl ⟨_, _, rfl, rfl⟩)
    | exact .inr (.inr ⟨_, _, rfl, rfl⟩)

theorem runFor_next {s t : State} (n : Nat) (h : step s = .next t) :
    runFor (n + 1) s = runFor n t := by
  simp [runFor, h]

/-- The model's run is the host's run of the machine. -/
theorem core_run_eq_runFor (n : Nat) : ∀ s : State, core.run n s = runFor n s := by
  induction n with
  | zero => exact fun _ => rfl
  | succ n ih =>
    intro s
    cases h : step s with
    | next t =>
      exact (show core.run (n + 1) s = core.run n t by
        exact (Host.Core.run.eq_2 core s n).trans (by rw [show core.step s = .next t from h])).trans
          ((ih t).trans (runFor_next n h).symm)
    | fault f =>
      exact (Host.Core.run.eq_2 core s n).trans
        (by rw [show core.step s = .fault f from h]; simp only [runFor, h]; rfl)
    | refused r =>
      exact (Host.Core.run.eq_2 core s n).trans
        (by rw [show core.step s = .refused r from h]; simp only [runFor, h]; rfl)

end Sys2Proof.Machine
end

