-- ==== Sys2Proof/Laws/PerInstr.lean ====
section
/-! SUPPORT. Statements for all instructions, one lemma per constructor. RowFixedBits: the encoder's word has the fixed bits of its opcode-table row, in place and in value (30_encoding.md R72 to R75). -/

namespace Sys2Proof.Laws.RowFixedBits

/-- The encoder's word is of the opcode-table row of its instruction. -/
def Statement (i : Instr) : Prop := encode i &&& (rowOf i).mask = (rowOf i).pattern

theorem of_bits {i : Instr}
    (h : ∀ k < 16, ((encode i).getLsbD k && (rowOf i).mask.getLsbD k) = (rowOf i).pattern.getLsbD k) :
    Statement i := by
  refine BitVec.eq_of_getLsbD_eq fun k hk => ?_
  simpa using h k hk

theorem nop : Statement (.nop) := rfl

theorem mov (c : Reg) (b : Reg) : Statement (.mov c b) := by
  refine of_bits fun k hk => ?_
  interval_cases k <;> simp [encode, rowOf, getElem_packRegs]

theorem add (c : Reg) (a : Reg) (b : Reg) : Statement (.add c a b) := by
  refine of_bits fun k hk => ?_
  interval_cases k <;> simp [encode, rowOf, getElem_packRegs]

theorem sub (c : Reg) (a : Reg) (b : Reg) : Statement (.sub c a b) := by
  refine of_bits fun k hk => ?_
  interval_cases k <;> simp [encode, rowOf, getElem_packRegs]

theorem and (c : Reg) (a : Reg) (b : Reg) : Statement (.and c a b) := by
  refine of_bits fun k hk => ?_
  interval_cases k <;> simp [encode, rowOf, getElem_packRegs]

theorem or (c : Reg) (a : Reg) (b : Reg) : Statement (.or c a b) := by
  refine of_bits fun k hk => ?_
  interval_cases k <;> simp [encode, rowOf, getElem_packRegs]

theorem xor (c : Reg) (a : Reg) (b : Reg) : Statement (.xor c a b) := by
  refine of_bits fun k hk => ?_
  interval_cases k <;> simp [encode, rowOf, getElem_packRegs]

theorem lsl (c : Reg) (a : Reg) (b : Reg) : Statement (.lsl c a b) := by
  refine of_bits fun k hk => ?_
  interval_cases k <;> simp [encode, rowOf, getElem_packRegs]

theorem asr (c : Reg) (a : Reg) (b : Reg) : Statement (.asr c a b) := by
  refine of_bits fun k hk => ?_
  interval_cases k <;> simp [encode, rowOf, getElem_packRegs]

theorem movpc (c : Reg) : Statement (.movpc c) := by
  refine of_bits fun k hk => ?_
  interval_cases k <;> simp [encode, rowOf, getElem_packMove, movpcLow]

theorem movib (c : Reg) : Statement (.movib c) := by
  refine of_bits fun k hk => ?_
  interval_cases k <;> simp [encode, rowOf, getElem_packMove, Config.movibLow]

theorem ld (d : Reg) (b : Reg) : Statement (.ld d b) := by
  refine of_bits fun k hk => ?_
  interval_cases k <;> simp [encode, rowOf, getElem_packRegs]

theorem ldadd (d : Reg) (a : Reg) (b : Reg) : Statement (.ldadd d a b) := by
  refine of_bits fun k hk => ?_
  interval_cases k <;> simp [encode, rowOf, getElem_packRegs]

theorem ldsub (d : Reg) (a : Reg) (b : Reg) : Statement (.ldsub d a b) := by
  refine of_bits fun k hk => ?_
  interval_cases k <;> simp [encode, rowOf, getElem_packRegs]

theorem st (src : Reg) (b : Reg) : Statement (.st src b) := by
  refine of_bits fun k hk => ?_
  interval_cases k <;> simp [encode, rowOf, getElem_packRegs]

theorem stadd (src : Reg) (a : Reg) (b : Reg) : Statement (.stadd src a b) := by
  refine of_bits fun k hk => ?_
  interval_cases k <;> simp [encode, rowOf, getElem_packRegs]

theorem stsub (src : Reg) (a : Reg) (b : Reg) : Statement (.stsub src a b) := by
  refine of_bits fun k hk => ?_
  interval_cases k <;> simp [encode, rowOf, getElem_packRegs]

theorem movi (n : Reg) (imm : Byte) : Statement (.movi n imm) := by
  refine of_bits fun k hk => ?_
  interval_cases k <;> simp [encode, rowOf, getElem_packImm]

theorem addi (n : Reg) (imm : Byte) : Statement (.addi n imm) := by
  refine of_bits fun k hk => ?_
  interval_cases k <;> simp [encode, rowOf, getElem_packImm]

theorem subi (n : Reg) (imm : Byte) : Statement (.subi n imm) := by
  refine of_bits fun k hk => ?_
  interval_cases k <;> simp [encode, rowOf, getElem_packImm]

theorem andi (n : Reg) (imm : Byte) : Statement (.andi n imm) := by
  refine of_bits fun k hk => ?_
  interval_cases k <;> simp [encode, rowOf, getElem_packImm]

theorem ori (n : Reg) (imm : Byte) : Statement (.ori n imm) := by
  refine of_bits fun k hk => ?_
  interval_cases k <;> simp [encode, rowOf, getElem_packImm]

theorem xori (n : Reg) (imm : Byte) : Statement (.xori n imm) := by
  refine of_bits fun k hk => ?_
  interval_cases k <;> simp [encode, rowOf, getElem_packImm]

theorem lsli (n : Reg) (sss : BitVec 3) : Statement (.lsli n sss) := by
  refine of_bits fun k hk => ?_
  interval_cases k <;> simp [encode, rowOf, getElem_packImm, shiftImm]

theorem asri (n : Reg) (sss : BitVec 3) : Statement (.asri n sss) := by
  refine of_bits fun k hk => ?_
  interval_cases k <;> simp [encode, rowOf, getElem_packImm, shiftImm]

theorem jump (b : Reg) (a : Reg) : Statement (.jump b a) := by
  refine of_bits fun k hk => ?_
  interval_cases k <;> simp [encode, rowOf, getElem_packRegs]

theorem bz (r : Reg) (off : Byte) : Statement (.bz r off) := by
  refine of_bits fun k hk => ?_
  interval_cases k <;> simp [encode, rowOf, getElem_packImm]

theorem bnz (r : Reg) (off : Byte) : Statement (.bnz r off) := by
  refine of_bits fun k hk => ?_
  interval_cases k <;> simp [encode, rowOf, getElem_packImm]

theorem bpl (r : Reg) (off : Byte) : Statement (.bpl r off) := by
  refine of_bits fun k hk => ?_
  interval_cases k <;> simp [encode, rowOf, getElem_packImm]

theorem bmi (r : Reg) (off : Byte) : Statement (.bmi r off) := by
  refine of_bits fun k hk => ?_
  interval_cases k <;> simp [encode, rowOf, getElem_packImm]

theorem bra (off : Byte) : Statement (.bra off) := by
  refine of_bits fun k hk => ?_
  interval_cases k <;> simp [encode, rowOf, getElem_packImm]

theorem banki (imm : Byte) : Statement (.banki imm) := by
  refine of_bits fun k hk => ?_
  interval_cases k <;> simp [encode, rowOf, getElem_packImm]

theorem bank (b : Reg) : Statement (.bank b) := by
  refine of_bits fun k hk => ?_
  interval_cases k <;> simp [encode, rowOf, getElem_packRegs]

theorem swhl (d : Reg) (b : Reg) : Statement (.swhl d b) := by
  refine of_bits fun k hk => ?_
  interval_cases k <;> simp [encode, rowOf, getElem_packRegs]

theorem halt : Statement (.halt) := rfl

end Sys2Proof.Laws.RowFixedBits
end

