-- ==== Sys2Proof/Tests/Slice0.lean ====
section
/-! SUPPORT. The model's own tests: small, one step each. Expected results are the spec's own: the worked examples of its rules and the vectors S-, T0- to T3- and A- of 95_test_vectors.md, named in the comments. -/

namespace Sys2Proof.Tests

open Sys2Proof Sys2Proof.Machine

/-- A running state on the default platform: registers, `PC`, `IB`, `DB` and memory as given, no draw taken. -/
def st8 (r0 r1 r2 r3 r4 r5 r6 r7 : Word) (pc : Word) (ib db : Byte) (mem : Memory) : State where
  regs := #v[r0, r1, r2, r3, r4, r5, r6, r7]
  pc := pc
  ib := ib
  db := db
  halted := false
  mem := mem
  draws := 0
  platform := Config.platform

/-- Registers numbered 0xA0 to 0xA7, but for the two given; `PC` 0x0100, `IB` 0x00. -/
def st2 (p q : Reg) (vp vq : Word) (db : Byte) (mem : Memory) : State :=
  ((st8 0xA0 0xA1 0xA2 0xA3 0xA4 0xA5 0xA6 0xA7 0x0100 0x00 db mem).setReg p vp).setReg q vq

/-- The answer is a next state of which the check holds. -/
def nextIs (o : Answer) (check : State → Bool) : Bool :=
  match o with
  | .next t => check t
  | .fault _ => false
  | .refused _ => false

/-- After the instruction, the register holds the value and `PC` is 0x0101. -/
def leaves (o : Answer) (r : Reg) (v : Word) : Bool :=
  nextIs o fun t => t.reg r == v && t.pc == 0x0101#16

/-! ## Well-formedness -/

/-- `mov r0,r0` has the word of `nop` (R76). -/
theorem test_wf_mov_r0_r0_is_ill_formed : Instr.wellFormed (.mov 0 0) = false := by decide

theorem test_wf_mov_with_one_r0 :
    Instr.wellFormed (.mov 0 1) = true ∧ Instr.wellFormed (.mov 1 0) = true := by decide

/-! ## Decoding: a word of every constructor, written out from its pattern (30_encoding.md, 95_test_vectors.md) -/

/-- R72; S-1, S-2, S-5, T0-9 to T0-20. -/
theorem test_decode_register_operations :
    decodeTableWord 16 0b0000000000000000 = some (.nop) ∧
    decodeTableWord 16 0b0001000001100000 = some (.mov 2 3) ∧
    decodeTableWord 16 0b0010001001100001 = some (.add 4 2 3) ∧
    decodeTableWord 16 0b0010110111000010 = some (.sub 5 5 6) ∧
    decodeTableWord 16 0b0000101001100011 = some (.and 1 2 3) ∧
    decodeTableWord 16 0b0000101001100100 = some (.or 1 2 3) ∧
    decodeTableWord 16 0b0000101001100101 = some (.xor 1 2 3) ∧
    decodeTableWord 16 0b0000101001100110 = some (.lsl 1 2 3) ∧
    decodeTableWord 16 0b0000101001100111 = some (.asr 1 2 3) := by decide

/-- R72; T0-22, T0-24, T0-26, T0-28, T0-30, T0-32, T0-34, T0-35. -/
theorem test_decode_moves_loads_stores :
    decodeTableWord 16 0b0011100000010000 = some (.movpc 7) ∧
    decodeTableWord 16 0b0000100000110000 = some (.movib 1) ∧
    decodeTableWord 16 0b0010000001001000 = some (.ld 4 2) ∧
    decodeTableWord 16 0b0010101001101001 = some (.ldadd 5 2 3) ∧
    decodeTableWord 16 0b0000111111001010 = some (.ldsub 1 7 6) ∧
    decodeTableWord 16 0b0010000001011000 = some (.st 4 2) ∧
    decodeTableWord 16 0b0010101001111001 = some (.stadd 5 2 3) ∧
    decodeTableWord 16 0b0000010111011010 = some (.stsub 0 5 6) := by decide

/-- R73; S-14, T1-4, T1-7, T1-10, T1-12, T1-14, T1-15, T1-20. -/
theorem test_decode_immediates :
    decodeTableWord 16 0b0101111000100000 = some (.movi 3 0xC4#8) ∧
    decodeTableWord 16 0b0101110011001001 = some (.addi 3 0x99#8) ∧
    decodeTableWord 16 0b0100000000110010 = some (.subi 0 6#8) ∧
    decodeTableWord 16 0b0100100001111011 = some (.andi 1 0x0F#8) ∧
    decodeTableWord 16 0b0101000110100100 = some (.ori 2 0x34#8) ∧
    decodeTableWord 16 0b0101111111111101 = some (.xori 3 0xFF#8) ∧
    decodeTableWord 16 0b0110100000100110 = some (.lsli 5 4#3) ∧
    decodeTableWord 16 0b0111000000000111 = some (.asri 6 0#3) := by decide

/-- R74; T2-1, T2-4, T2-7, T2-9, T2-12, T2-16. -/
theorem test_decode_jumps_and_branches :
    decodeTableWord 16 0b1000000000100000 = some (.jump 1 0) ∧
    decodeTableWord 16 0b1001100000011011 = some (.bz 3 3#8) ∧
    decodeTableWord 16 0b1000111111110100 = some (.bnz 1 0xFE#8) ∧
    decodeTableWord 16 0b1001000000101101 = some (.bpl 2 5#8) ∧
    decodeTableWord 16 0b1001011111101110 = some (.bmi 2 0xFD#8) ∧
    decodeTableWord 16 0b1000011111100111 = some (.bra 0xFC#8) := by decide

/-- R75; T3-1, T3-5, T3-7, T3-9. -/
theorem test_decode_miscellaneous :
    decodeTableWord 16 0b1100010000000001 = some (.banki 0x80#8) ∧
    decodeTableWord 16 0b1100000011100010 = some (.bank 7) ∧
    decodeTableWord 16 0b1110100001000011 = some (.swhl 5 2) ∧
    decodeTableWord 16 0b1100000000000111 = some (.halt) := by decide

/-- R78: a word of each case of the list, under its name (T0-38 to T0-47, T1-23, T1-24, T2-24 to T2-29, T3-10 to T3-19). -/
theorem test_undefined_words :
    decode 0x0100#16 = .error .fieldASet ∧ decode 0x0118#16 = .error .fieldASet ∧
    decode 0x000B#16 = .error .readOperation ∧ decode 0x000F#16 = .error .readOperation ∧
    decode 0x001B#16 = .error .writeOperation ∧ decode 0x0070#16 = .error .moveFields ∧
    decode 0x0110#16 = .error .moveFields ∧ decode 0x0011#16 = .error .moveOperation ∧
    decode 0x4046#16 = .error .shiftAmountHigh ∧ decode 0x4407#16 = .error .shiftAmountHigh ∧
    decode 0x8001#16 = .error .type2Operation ∧ decode 0xBFFA#16 = .error .type2Operation ∧
    decode 0x8800#16 = .error .jumpFields ∧ decode 0x8008#16 = .error .jumpFields ∧
    decode 0x8807#16 = .error .braFields ∧ decode 0xC000#16 = .error .type3Operation ∧
    decode 0xC801#16 = .error .bankiFields ∧ decode 0xC102#16 = .error .bankFields ∧
    decode 0xC00A#16 = .error .bankFields ∧ decode 0xC103#16 = .error .swhlFields ∧
    decode 0xC00F#16 = .error .haltFields ∧ decode 0xFFFF#16 = .error .haltFields := by decide

/-! ## Meanings -/

/-- T0-37: nothing but `PC` changes. -/
theorem test_nop :
    nextIs (exec .nop (st2 0 1 0x1234 0x5678 0x00 [(7, 9)])) (fun t => t ==
      { st2 0 1 0x1234 0x5678 0x00 [(7, 9)] with pc := 0x0101 }) = true := by decide

/-- T0-1. -/
theorem test_mov :
    leaves (exec (.mov 2 3) (st2 2 3 0 0xBEEF 0 [])) 2 0xBEEF = true := by decide

/-- T0-3. -/
theorem test_add_wraps :
    leaves (exec (.add 4 2 3) (st2 2 3 0xFFFF 0x0002 0 [])) 4 0x0001 = true := by decide

/-- T0-5. -/
theorem test_add_all_the_same :
    leaves (exec (.add 1 1 1) (st2 1 2 0x4000 0 0 [])) 1 0x8000 = true := by decide

/-- T0-6. -/
theorem test_sub_borrows :
    leaves (exec (.sub 4 2 3) (st2 2 3 0x0003 0x0005 0 [])) 4 0xFFFE = true := by decide

/-- T0-9. -/
theorem test_and :
    leaves (exec (.and 1 2 3) (st2 2 3 0x0FF0 0x3C3C 0 [])) 1 0x0C30 = true := by decide

/-- T0-10. -/
theorem test_or :
    leaves (exec (.or 1 2 3) (st2 2 3 0x0FF0 0x3C3C 0 [])) 1 0x3FFC = true := by decide

/-- T0-11. -/
theorem test_xor :
    leaves (exec (.xor 1 2 3) (st2 2 3 0x0FF0 0x3C3C 0 [])) 1 0x33CC = true := by decide

/-- T0-15. -/
theorem test_lsl_zero_is_eight :
    leaves (exec (.lsl 1 2 3) (st2 2 3 0x0081 0x0000 0 [])) 1 0x8100 = true := by decide

/-- T0-16. -/
theorem test_lsl_low_three_bits :
    leaves (exec (.lsl 1 2 3) (st2 2 3 0x0081 0x000B 0 [])) 1 0x0408 = true := by decide

/-- T0-18. -/
theorem test_asr_sign_fill :
    leaves (exec (.asr 1 2 3) (st2 2 3 0x8100 0x0004 0 [])) 1 0xF810 = true := by decide

/-- T0-19. -/
theorem test_asr_zero_is_eight :
    leaves (exec (.asr 1 2 3) (st2 2 3 0x8100 0x0000 0 [])) 1 0xFF81 = true := by decide

/-- T0-22: its own address, and `PC` wraps with `IB` kept (D3). -/
theorem test_movpc_own_address_and_wrap :
    nextIs (exec (.movpc 7) (st8 0 0 0 0 0 0 0 0 0xFFFF 0x56 0 []))
      (fun t => t.reg 7 == 0xFFFF && t.pc == 0x0000 && t.ib == 0x56) = true := by decide

/-- T0-24: `IB` in the low byte, whatever the draw. -/
theorem test_movib_low_byte :
    ∃ t, exec (.movib 1) (st8 0 0 0 0 0 0 0 0 0x0100 0x56 0 []) = .next t ∧
      (t.reg 1).extractLsb' 0 8 = 0x56#8 ∧ t.pc = 0x0101#16 ∧ t.draws = 1 :=
  ⟨_, rfl, by rw [reg_advance, reg_setReg_same, low_byte_append]; rfl, rfl, rfl⟩

/-- T0-26: through `DB`. -/
theorem test_ld :
    leaves (exec (.ld 4 2) (st2 2 3 0x1000 0 0x80 [(0x801000, 0xCAFE)])) 4 0xCAFE = true := by decide

/-- T0-27. -/
theorem test_ld_into_its_address_register :
    leaves (exec (.ld 2 2) (st2 2 3 0x0010 0 0x00 [(0x10, 0x0020)])) 2 0x0020 = true := by decide

/-- T0-28. -/
theorem test_ldadd_wraps_in_bank :
    leaves (exec (.ldadd 5 2 3) (st2 2 3 0xFFFF 0x0002 0x01 [(0x010001, 0x5A5A), (0x020001, 0xDEAD)])) 5 0x5A5A = true := by decide

/-- T0-30. -/
theorem test_ldsub_wraps_in_bank :
    leaves (exec (.ldsub 1 7 6) (st2 6 7 0x0001 0x0000 0x02 [(0x02FFFF, 0x1357)])) 1 0x1357 = true := by decide

/-- T0-32. -/
theorem test_st :
    nextIs (exec (.st 4 2) (st2 2 4 0x0200 0xABCD 0x00 [])) (fun t => t.mem == [(0x000200, 0xABCD)]) = true := by decide

/-- T0-33. -/
theorem test_st_address_register :
    nextIs (exec (.st 2 2) (st2 2 3 0x0200 0 0x7F [])) (fun t => t.mem == [(0x7F0200, 0x0200)]) = true := by decide

/-- T0-36. -/
theorem test_stadd_top_bank :
    nextIs (exec (.stadd 5 2 3) ((st2 2 3 0xFFFF 0x0001 0xFF []).setReg 5 0x00EE))
      (fun t => t.mem == [(0xFF0000, 0x00EE)]) = true := by decide

/-- T0-35. -/
theorem test_stsub_wraps_in_bank :
    nextIs (exec (.stsub 0 5 6) ((st2 5 6 0x0010 0x0020 0x00 []).setReg 0 0x4321))
      (fun t => t.mem == [(0x00FFF0, 0x4321)]) = true := by decide

/-- The list stays sorted, and a word of zeros is not listed (log 2). -/
theorem test_store_keeps_the_canonical_form :
    nextIs (exec (.st 4 2) (st2 2 4 0x0007 0x0000 0x00 [(3, 1), (7, 2), (9, 3)]))
      (fun t => t.mem == [(3, 1), (9, 3)]) = true := by decide

/-- T1-2. -/
theorem test_movi_no_sign_extension :
    leaves (exec (.movi 0 0xFF) (st2 0 1 0x1234 0 0 [])) 0 0x00FF = true := by decide

/-- T1-5: 0x99 is +153. -/
theorem test_addi_wraps :
    leaves (exec (.addi 3 0x99) (st2 3 1 0xFF70 0 0 [])) 3 0x0009 = true := by decide

/-- T1-7. -/
theorem test_subi_wraps :
    leaves (exec (.subi 0 6) (st2 0 1 0x0003 0 0 [])) 0 0xFFFD = true := by decide

/-- T1-10. -/
theorem test_andi_clears_high :
    leaves (exec (.andi 1 0x0F) (st2 1 2 0xABCD 0 0 [])) 1 0x000D = true := by decide

/-- T1-12. -/
theorem test_ori :
    leaves (exec (.ori 2 0x34) (st2 2 1 0x1200 0 0 [])) 2 0x1234 = true := by decide

/-- T1-14. -/
theorem test_xori_low_byte_only :
    leaves (exec (.xori 3 0xFF) (st2 3 1 0x1234 0 0 [])) 3 0x12CB = true := by decide

/-- T1-18. -/
theorem test_lsli :
    leaves (exec (.lsli 5 7) (st2 5 1 0x0001 0 0 [])) 5 0x0080 = true := by decide

/-- T1-16. -/
theorem test_lsli_zero_is_eight :
    leaves (exec (.lsli 5 0) (st2 5 1 0x12AB 0 0 [])) 5 0xAB00 = true := by decide

/-- T1-21. -/
theorem test_asri :
    leaves (exec (.asri 6 7) (st2 6 1 0x7FFF 0 0 [])) 6 0x00FF = true := by decide

/-- T1-20. -/
theorem test_asri_zero_is_eight :
    leaves (exec (.asri 6 0) (st2 6 1 0x8000 0 0 [])) 6 0xFF80 = true := by decide

/-- T2-1: the bank register's high byte is ignored and `DB` untouched. -/
theorem test_jump :
    nextIs (exec (.jump 1 0) (st2 0 1 0x3456 0xAB12 0x77 []))
      (fun t => t.pc == 0x3456 && t.ib == 0x12 && t.db == 0x77 && t.fetchAddr == 0x123456) = true := by decide

/-- T2-4. -/
theorem test_bz_taken :
    nextIs (exec (.bz 3 3) (st2 3 4 0x0000 0 0 [])) (fun t => t.pc == 0x0103) = true := by decide

/-- T2-6. -/
theorem test_bz_not_taken :
    nextIs (exec (.bz 3 3) (st2 3 4 0x8000 0 0 [])) (fun t => t.pc == 0x0101) = true := by decide

/-- T2-7. -/
theorem test_bnz_taken :
    nextIs (exec (.bnz 1 0xFE) (st2 1 2 0x0001 0 0 [])) (fun t => t.pc == 0x00FE) = true := by decide

/-- T2-8. -/
theorem test_bnz_not_taken :
    nextIs (exec (.bnz 1 0xFE) (st2 1 2 0x0000 0 0 [])) (fun t => t.pc == 0x0101) = true := by decide

/-- T2-9. -/
theorem test_bpl_zero_is_plus :
    nextIs (exec (.bpl 2 5) (st2 2 3 0x0000 0 0 [])) (fun t => t.pc == 0x0105) = true := by decide

/-- T2-11. -/
theorem test_bpl_not_taken :
    nextIs (exec (.bpl 2 5) (st2 2 3 0x8000 0 0 [])) (fun t => t.pc == 0x0101) = true := by decide

/-- T2-12. -/
theorem test_bmi_taken :
    nextIs (exec (.bmi 2 0xFD) (st2 2 3 0x8000 0 0 [])) (fun t => t.pc == 0x00FD) = true := by decide

/-- T2-15. -/
theorem test_bmi_not_taken :
    nextIs (exec (.bmi 2 0xFD) (st2 2 3 0x7FFF 0 0 [])) (fun t => t.pc == 0x0101) = true := by decide

/-- T2-21. -/
theorem test_bra_wraps_in_bank :
    nextIs (exec (.bra 0xFC) (st8 0 0 0 0 0 0 0 0 0x0002 0x05 0 []))
      (fun t => t.pc == 0xFFFE && t.ib == 0x05) = true := by decide

/-- T2-20. -/
theorem test_bra_largest_backward :
    nextIs (exec (.bra 0x80) (st2 0 1 0 0 0 [])) (fun t => t.pc == 0x0080) = true := by decide

/-- T3-1: `IB` untouched. -/
theorem test_banki :
    nextIs (exec (.banki 0x80) (st8 0 0 0 0 0 0 0 0 0x0100 0x22 0x11 []))
      (fun t => t.db == 0x80 && t.ib == 0x22 && t.pc == 0x0101) = true := by decide

/-- T3-4: the high byte is ignored. -/
theorem test_bank :
    nextIs (exec (.bank 0) (st2 0 1 0x1234 0 0x00 [])) (fun t => t.db == 0x34 && t.pc == 0x0101) = true := by decide

/-- T3-7: the source is unchanged. -/
theorem test_swhl :
    nextIs (exec (.swhl 5 2) (st2 2 3 0x3412 0 0 []))
      (fun t => t.reg 5 == 0x1234 && t.reg 2 == 0x3412 && t.pc == 0x0101) = true := by decide

/-- T3-9: nothing but the latch changes. -/
theorem test_halt :
    nextIs (exec .halt (st2 0 1 0 0 0 [])) (fun t => t == { st2 0 1 0 0 0 [] with halted := true }) = true := by decide

/-- A-5, A-11, A-34, A-49, A-56 and A-65: the ALU by its codes. -/
theorem test_alu_vectors :
    alu .sum 0xFFFF 0xFFFF = 0xFFFE ∧ alu .diff 0x7FFF 0xFFFF = 0x8000 ∧
    alu .lsl 0x00FF 0xFFFF = 0x7F80 ∧ alu .asr 0x8000 0xFFFF = 0xFF00 ∧
    alu .asr 0xFFFB 0x0001 = 0xFFFD ∧ alu .sb 0x0000 0x8001 = 0x0180 := by decide

/-! ## MemMap: an access it does not admit has no step (R49, D8) -/

/-- A bank of ROM, a device page at the start of bank 1, RAM in the rest of it, and nothing above. -/
def romRam : Platform where
  memMap := [⟨0x000000, 0x10000, .readOnly⟩, ⟨0x010000, 0x100, .device⟩, ⟨0x010000, 0x10000, .storage⟩]
  resetPc := 0x0010
  resetIb := 0x00

/-- A state on that platform, R2 and R3 given. -/
def stRom (v2 v3 : Word) (db : Byte) : State :=
  { st2 2 3 v2 v3 db [(0x20, 0xBEEF)] with platform := romRam }

theorem test_rom_admits_a_load_and_no_store :
    leaves (exec (.ld 3 2) (stRom 0x0020 0 0x00)) 3 0xBEEF = true ∧
    exec (.st 3 2) (stRom 0x0020 0 0x00) = .fault (.notAdmitted .store 0x000020) :=
  ⟨by decide, rfl⟩

theorem test_hole_and_device_admit_nothing :
    exec (.ldadd 4 2 3) (stRom 0x00F0 0x0010 0x02) = .fault (.notAdmitted .load 0x020100) ∧
    exec (.ldsub 4 2 3) (stRom 0x00F0 0x0010 0x01) = .fault (.notAdmitted .load 0x0100E0) ∧
    nextIs (exec (.stadd 4 2 3) (stRom 0x00F0 0x0010 0x01))
      (fun t => t.mem == [(0x20, 0xBEEF), (0x010100, 0x00A4)]) = true :=
  ⟨rfl, rfl, by decide⟩

/-- R222: the first fetch after the host's reset is at the platform's own RESET_IB : RESET_PC. -/
theorem test_host_reset_starts_at_the_platforms_address :
    ((stRom 0 0 0).hostReset (Vector.replicate 8 0) 0).fetchAddr = 0x000010 := by decide

/-! ## Steps -/

/-- X-1: `bra 0` leaves all state unchanged, fetched and executed as the first instruction after reset. -/
theorem test_step_bra_to_itself :
    nextIs (step (State.reset.withFetchWord 16 0x8007))
      (fun t => t == State.reset.withFetchWord 16 0x8007) = true := by decide

/-- T0-31: a load may read its own instruction word. -/
theorem test_step_load_reads_own_word :
    nextIs (step ((st2 2 3 0x0100 0 0x00 []).withFetchWord 16 0x2048))
      (fun t => t.reg 4 == 0x2048) = true := by decide

/-! ## Witnesses: for every statement with hypotheses, a state and operands that meet them -/

/-- P6, step 6: a store of `halt` over the next instruction. -/
def p6 : State := st8 0 0xC007 0x0006 0 0 0 0 0 0x0005 0x00 0x00 [(5, 0x0858), (6, 0x8007)]

theorem witness_decode_encode : Instr.wellFormed (.mov 1 0) = true := by decide

theorem witness_encode_decode : decode 0x2261#16 = .ok (.add 4 2 3) := by decide

theorem witness_two_rows :
    (⟨0xFFFF, 0x0000⟩ : Row) ∈ opcodeRows ∧ (⟨0xC71F, 0x0000⟩ : Row) ∈ opcodeRows ∧
    0x0000#16 &&& 0xFFFF#16 = 0x0000#16 ∧ 0x0000#16 &&& 0xC71F#16 = 0x0000#16 := by decide

theorem witness_one_row :
    (⟨0xC01F, 0x0001⟩ : Row) ∈ opcodeRows ∧ 0x2261#16 &&& 0xC01F#16 = 0x0001#16 := by decide

theorem witness_step_runs_decoded :
    p6.halted = false ∧ admits p6.platform .fetch p6.fetchAddr = true ∧
    decode (p6.mem.read p6.fetchAddr) = .ok (.st 1 2) := by decide

theorem witness_undefined_word :
    (State.reset.withFetchWord 16 0xFFFF).halted = false ∧
    admits (State.reset.withFetchWord 16 0xFFFF).platform .fetch
      (State.reset.withFetchWord 16 0xFFFF).fetchAddr = true ∧
    decode ((State.reset.withFetchWord 16 0xFFFF).mem.read
      (State.reset.withFetchWord 16 0xFFFF).fetchAddr) = .error .haltFields := by decide

theorem witness_halted : ({ State.reset with halted := true } : State).halted = true := rfl

theorem witness_mov_field_a : 0x0100#16 &&& 0xC01F#16 = 0x0000#16 ∧
    (0x0100#16).extractLsb' 8 3 ≠ 0#3 := by decide

theorem witness_operation_register : decode 0x2261#16 = .ok (.add 4 2 3) ∧
    (0x2261#16).extractLsb' 14 2 = 0b00#2 ∧ (0x2261#16).extractLsb' 3 2 = 0b00#2 := by decide

theorem witness_operation_immediate : decode 0x5CC9#16 = .ok (.addi 3 0x99#8) ∧
    (0x5CC9#16).extractLsb' 14 2 = 0b01#2 := by decide

theorem witness_lsli_high_bits : 0x4046#16 &&& 0xC007#16 = 0x4006#16 ∧
    (0x4046#16).extractLsb' 6 5 ≠ 0#5 := by decide

theorem witness_bra_register_bits : 0x8807#16 &&& 0xC007#16 = 0x8007#16 ∧
    (0x8807#16).extractLsb' 11 3 ≠ 0#3 := by decide

/-- A-32: 9 and 1 shift alike. -/
theorem witness_shift_amounts : (0x0009#16).toNat % 8 = (0x0001#16).toNat % 8 := by decide

theorem witness_write_one_word : (0x000006#24 : Addr) ≠ 0x000005#24 ∧
    (∃ t, exec .nop p6 = .next t) ∧ isStore .nop = false :=
  ⟨by decide, ⟨_, rfl⟩, rfl⟩

theorem witness_canonical_memories :
    Memory.wf [(5, 1)] = true ∧ ∀ a : Addr, Memory.read [(5, 1)] a = Memory.read [(5, 1)] a :=
  ⟨by decide, fun _ => rfl⟩

/-- The default platform admits the data access of every load and store. -/
theorem witness_admitted :
    admits p6.platform .load (p6.dataAddr (eaB 2 p6)) = true ∧
    admits p6.platform .load (p6.dataAddr (eaSum 2 0 p6)) = true ∧
    admits p6.platform .load (p6.dataAddr (eaDiff 2 0 p6)) = true ∧
    admits p6.platform .store (p6.dataAddr (eaB 2 p6)) = true ∧
    admits p6.platform .store (p6.dataAddr (eaSum 2 0 p6)) = true ∧
    admits p6.platform .store (p6.dataAddr (eaDiff 2 0 p6)) = true := by decide

theorem witness_default_map : p6.platform.memMap = Config.memMap := rfl

theorem witness_map_regions :
    romRam.memMap = [⟨0x000000, 0x10000, .readOnly⟩, ⟨0x010000, 0x100, .device⟩]
      ++ ⟨0x010000, 0x10000, .storage⟩ :: [] ∧
    (∀ q ∈ [(⟨0x000000, 0x10000, .readOnly⟩ : Region), ⟨0x010000, 0x100, .device⟩],
      ¬ InRegion q 0x010100#24) ∧
    InRegion ⟨0x010000, 0x10000, .storage⟩ 0x010100#24 := by
  refine ⟨rfl, ?_, ?_⟩ <;> simp [InRegion]

theorem witness_no_region : ∀ r ∈ romRam.memMap, ¬ InRegion r 0x020000#24 := by
  simp [romRam, InRegion]

theorem witness_not_admitted :
    dataAccess (stRom 0x0020 0 0x00) (.st 3 2) = some (.store, 0x000020#24) ∧
    admits (stRom 0x0020 0 0x00).platform .store 0x000020#24 = false ∧
    dataAccess (stRom 0x0020 0 0x02) (.ld 3 2) = some (.load, 0x020020#24) ∧
    admits (stRom 0x0020 0 0x02).platform .load 0x020020#24 = false := by decide

theorem witness_fetch_not_admitted : ({ stRom 0 0 0 with ib := 0x02 } : State).halted = false ∧
    admits romRam .fetch ({ stRom 0 0 0 with ib := 0x02 } : State).fetchAddr = false := by decide

/-- The three stores of `halt` over the word at 0x0006, by R2 = 6 and R0 = 0. -/
theorem witness_stored_word_fetched_next : p6.halted = false ∧ decode (p6.reg 1) = .ok .halt ∧
    admits p6.platform .fetch p6.advance.fetchAddr = true ∧
    p6.dataAddr (eaB 2 p6) = p6.advance.fetchAddr ∧
    p6.dataAddr (eaSum 2 0 p6) = p6.advance.fetchAddr ∧
    p6.dataAddr (eaDiff 2 0 p6) = p6.advance.fetchAddr ∧
    nextIs (exec (.st 1 2) p6) (fun t => t.fetchAddr == p6.advance.fetchAddr) = true ∧
    nextIs (exec (.stadd 1 2 0) p6) (fun t => t.fetchAddr == p6.advance.fetchAddr) = true ∧
    nextIs (exec (.stsub 1 2 0) p6) (fun t => t.fetchAddr == p6.advance.fetchAddr) = true := by
  decide

theorem witness_step_from_invariant :
    State.reset.Inv ∧ p6.Inv ∧ nextIs (step p6) (fun t => t.mem.wf) = true := by decide

theorem witness_pc_branch_taken : ∃ t, exec (.bz 3 3) (st2 3 1 0x0000 0 0 []) = .next t ∧
    t.pc = nextPc (st2 3 1 0x0000 0 0 []) (.bz 3 3) := ⟨_, rfl, by decide⟩

theorem witness_pc_branch_untaken : ∃ t, exec (.bz 3 3) (st2 3 1 0x8000 0 0 []) = .next t ∧
    t.pc = 0x0101#16 := ⟨_, rfl, by decide⟩

theorem witness_increment_wraps : ∃ t, exec .nop { p6 with pc := 0xFFFF } = .next t ∧
    nextPc { p6 with pc := 0xFFFF } .nop = 0xFFFF#16 + 1#16 ∧ ∀ b a, Instr.nop ≠ .jump b a :=
  ⟨_, rfl, rfl, fun _ _ h => by cases h⟩

theorem witness_db_not_used : usesDb (.mov 2 3) = false ∧ ∃ t, exec (.mov 2 3) p6 = .next t :=
  ⟨rfl, ⟨_, rfl⟩⟩

theorem witness_halt_latch : ∃ t, step (State.reset.withFetchWord 16 0xC007) = .next t ∧
    t.halted = true :=
  ⟨{ State.reset.withFetchWord 16 0xC007 with halted := true },
    step_decoded (i := .halt) rfl (admits_default ..) (by decide), rfl⟩

theorem witness_destination : (∃ t, exec (.mov 2 3) p6 = .next t) ∧
    destOf (.mov 2 3) ≠ some 3 := ⟨⟨_, rfl⟩, by decide⟩

theorem witness_sources : (1 : Reg) ∉ sourcesOf (.mov 2 3) ∧ (2 : Reg) ∉ sourcesOf (.mov 2 3) := by decide

theorem witness_draw_frame : ∀ c, Instr.movib 1 = .movib c → (2 : Reg) ≠ c := by
  intro c h
  cases h
  decide

theorem witness_not_movpc_not_movib :
    (∀ c, Instr.mov 2 3 ≠ .movpc c) ∧ (∀ c, Instr.mov 2 3 ≠ .movib c) ∧
    (∀ b a, Instr.mov 2 3 ≠ .jump b a) ∧ ∃ t, exec (.mov 2 3) p6 = .next t :=
  ⟨(fun _ h => by cases h), (fun _ h => by cases h), (fun _ _ h => by cases h), ⟨_, rfl⟩⟩

theorem witness_other_type3 : ((∃ imm, Instr.banki 0x80 = .banki imm) ∨
    (∃ b, Instr.banki 0x80 = .bank b) ∨ Instr.banki 0x80 = .halt) ∧
    ∃ t, exec (.banki 0x80) p6 = .next t := ⟨.inl ⟨_, rfl⟩, ⟨_, rfl⟩⟩

theorem witness_two_registers : (1 : Reg) ≠ 0 := by decide

theorem witness_saved_address : ∃ t u, exec (.movib 1) p6 = .next t ∧ exec (.movpc 2) t = .next u ∧
    ∃ v : State, v.reg 1 = u.reg 1 ∧ v.reg 2 = u.reg 2 := ⟨_, _, rfl, rfl, _, rfl, rfl⟩

theorem witness_word_at_reset_address :
    admits State.reset.platform .fetch (State.reset.hostReset State.reset.regs 0).fetchAddr = true ∧
    decode (State.reset.mem.read (State.reset.hostReset State.reset.regs 0).fetchAddr) = .ok .nop := by
  decide

theorem witness_run_ends : (State.reset.withFetchWord 16 0xC007).halted = false ∧
    RunEnds (State.reset.withFetchWord 16 0xC007) 1
      { State.reset.withFetchWord 16 0xC007 with halted := true } := by
  refine ⟨rfl, runFor_next 0 ?_, rfl⟩
  exact step_decoded (i := .halt) rfl (admits_default ..) (by decide)

theorem witness_run_refused : RunRefused (State.reset.withFetchWord 16 0xFFFF) 1 := by
  refine ⟨.undefinedWord .haltFields 0xFFFF#16, ?_⟩
  simp only [runFor, step_undefined (s := State.reset.withFetchWord 16 0xFFFF) (u := .haltFields)
    rfl (admits_default ..) (by decide)]
  rfl

end Sys2Proof.Tests
end

section
/-! How every instruction ends, and what that says of memory and of the machine's parameters in the next state. -/

namespace Sys2Proof.Machine

open Sys2Proof

/-- The ways an instruction can end in a state: one of the model's shared endings, with the values it is given.
`exec_ending` says that every instruction ends in one of them. -/
inductive Ending (s : State) : Answer → Prop where
  /-- A register result (R109, R140). -/
  | reg (c : Reg) (v : Word) : Ending s (finishReg c v s)
  /-- A register result for which a draw is taken, as `movib` does (R119, D4). -/
  | regDraw (c : Reg) (v : Word) : Ending s (finishReg c v s.takeDraw)
  /-- A load (R43). -/
  | load (d : Reg) (ea : Word) : Ending s (finishLoad d ea s)
  /-- A store (R44). -/
  | store (src : Reg) (ea : Word) : Ending s (finishStore src ea s)
  /-- A branch, taken or not (R161). -/
  | branch (cond : Bool) (off : Byte) : Ending s (finishBranch cond off s)
  /-- A jump (R160). -/
  | jump (bank : Byte) (addr : Word) : Ending s (.next (s.jumpTo bank addr))
  /-- A write of `DB` (R180, R181). -/
  | setDb (bank : Byte) : Ending s (.next (s.setDb bank).advance)
  /-- The halt (R183). -/
  | halt : Ending s (.next s.halt)

/-- Every instruction ends in one of the shared endings. -/
theorem exec_ending (s : State) : ∀ i : Instr, Ending s (exec i s)
  | .nop | .mov .. | .add .. | .sub .. | .and .. | .or .. | .xor .. | .lsl .. | .asr ..
  | .movpc .. | .movi .. | .addi .. | .subi .. | .andi .. | .ori .. | .xori .. | .lsli ..
  | .asri .. | .swhl .. => .reg ..
  | .movib .. => .regDraw ..
  | .ld .. | .ldadd .. | .ldsub .. => .load ..
  | .st .. | .stadd .. | .stsub .. => .store ..
  | .bz .. | .bnz .. | .bpl .. | .bmi .. | .bra .. => .branch ..
  | .jump .. => .jump ..
  | .banki .. | .bank .. => .setDb ..
  | .halt => .halt

/-- What an instruction may do to memory and to the machine's parameters: at most one word of memory is written
(R44, R47), and the parameters are kept (R6). -/
def WritesAtMostOneWord (s t : State) : Prop :=
  (t.mem = s.mem ∨ ∃ a v, t.mem = s.mem.write a v) ∧ t.platform = s.platform

/-- Whichever way an instruction ends, a next state differs in memory by one write at most. -/
theorem Ending.writesAtMostOneWord {s t : State} {r : Answer} (e : Ending s r) (h : r = .next t) :
    WritesAtMostOneWord s t := by
  cases e with
  | reg | regDraw | jump | setDb | halt =>
    cases h
    exact ⟨.inl rfl, rfl⟩
  | load d ea =>
    rw [finishLoad_eq] at h
    split at h <;> cases h
    exact ⟨.inl rfl, rfl⟩
  | store src ea =>
    rw [finishStore_eq] at h
    split at h <;> cases h
    exact ⟨.inr ⟨_, _, rfl⟩, rfl⟩
  | branch cond off =>
    cases cond <;> cases h <;> exact ⟨.inl rfl, rfl⟩

/-- An instruction writes at most one word of memory and keeps the machine's parameters. -/
theorem exec_writesAtMostOneWord {i : Instr} {s t : State} (h : exec i s = .next t) :
    WritesAtMostOneWord s t :=
  (exec_ending s i).writesAtMostOneWord h

/-- One write at most keeps the canonical form of memory. -/
theorem WritesAtMostOneWord.inv {s t : State} (h : WritesAtMostOneWord s t) (hs : s.Inv) : t.Inv := by
  obtain ⟨hmem | ⟨a, v, hmem⟩, -⟩ := h
  · rwa [State.Inv, hmem]
  · rw [State.Inv, hmem]
    exact wf_write a v hs

/-- Settles O44: a step that answers a next state is an instruction's meaning, which writes at most one word of
memory and keeps the parameters, and one write keeps the canonical form. -/
theorem stepKeepsInvariant : Obligations.StepKeepsInvariant := by
  intro s t hs hstep
  obtain ⟨-, -, i, -, hexec⟩ := step_next_cases hstep
  have hw : WritesAtMostOneWord s t := exec_writesAtMostOneWord hexec
  exact ⟨hw.inv hs, hw.2⟩

end Sys2Proof.Machine
end

section
/-! What an instruction does, with the values it computes as data, and what that says of each field of the next
state (10_state.md R21 to R33). -/

namespace Sys2Proof.Machine

open Sys2Proof

/-- What an instruction does to the state, with the values it has computed. `Ending` names the shared ending
only; here the values are data, so that what one instruction does in two states can be compared. -/
inductive Effect where
  /-- A register result (R109, R140). -/
  | reg (c : Reg) (v : Word)
  /-- A register result for which a draw is taken (R119, D4). -/
  | regDraw (c : Reg) (v : Word)
  /-- A load from `DB : EA` (R43). -/
  | load (d : Reg) (ea : Word)
  /-- A store of a value to `DB : EA` (R44). -/
  | store (v ea : Word)
  /-- A branch, taken or not (R161). -/
  | branch (cond : Bool) (off : Byte)
  /-- A jump (R160). -/
  | jump (bank : Byte) (addr : Word)
  /-- A write of `DB` (R180, R181). -/
  | setDb (bank : Byte)
  /-- The halt (R183). -/
  | halt

/-- The state an effect leads to, where MemMap admits its data access. -/
def Effect.apply (s : State) : Effect → State
  | .reg c v => (s.setReg c v).advance
  | .regDraw c v => (s.takeDraw.setReg c v).advance
  | .load d ea => (s.setReg d (s.mem.read (s.dataAddr ea))).advance
  | .store v ea => { s with mem := s.mem.write (s.dataAddr ea) v, pc := s.pc + 1#16 }
  | .branch cond off => { s with pc := if cond then s.pc + off.signExtend 16 else s.pc + 1#16 }
  | .jump bank addr => s.jumpTo bank addr
  | .setDb bank => (s.setDb bank).advance
  | .halt => s.halt

/-- The general register an effect writes, if any. -/
def Effect.dest : Effect → Option Reg
  | .reg c _ | .regDraw c _ | .load c _ => some c
  | .store .. | .branch .. | .jump .. | .setDb .. | .halt => none

/-- The data access of an effect, if any. -/
def Effect.access (s : State) : Effect → Option (Access × Addr)
  | .load _ ea => some (.load, s.dataAddr ea)
  | .store _ ea => some (.store, s.dataAddr ea)
  | .reg .. | .regDraw .. | .branch .. | .jump .. | .setDb .. | .halt => none

/-- What an instruction does in a state. `exec_eq_next_iff` ties it to `exec`. -/
def effectOf (s : State) : Instr → Effect
  | .nop => .reg 0 (s.reg 0)
  | .mov c b => .reg c (s.reg b)
  | .add c a b => .reg c (alu .sum (s.reg a) (s.reg b))
  | .sub c a b => .reg c (alu .diff (s.reg a) (s.reg b))
  | .and c a b => .reg c (alu .and (s.reg a) (s.reg b))
  | .or c a b => .reg c (alu .or (s.reg a) (s.reg b))
  | .xor c a b => .reg c (alu .xor (s.reg a) (s.reg b))
  | .lsl c a b => .reg c (alu .lsl (s.reg a) (s.reg b))
  | .asr c a b => .reg c (alu .asr (s.reg a) (s.reg b))
  | .movpc c => .reg c s.pc
  | .movib c => .regDraw c (s.drawnByte ++ s.ib)
  | .ld d b => .load d (eaB b s)
  | .ldadd d a b => .load d (eaSum a b s)
  | .ldsub d a b => .load d (eaDiff a b s)
  | .st src b => .store (s.reg src) (eaB b s)
  | .stadd src a b => .store (s.reg src) (eaSum a b s)
  | .stsub src a b => .store (s.reg src) (eaDiff a b s)
  | .movi n imm => .reg n (immOperand imm)
  | .addi n imm => .reg n (alu .sum (s.reg n) (immOperand imm))
  | .subi n imm => .reg n (alu .diff (s.reg n) (immOperand imm))
  | .andi n imm => .reg n (alu .and (s.reg n) (immOperand imm))
  | .ori n imm => .reg n (alu .or (s.reg n) (immOperand imm))
  | .xori n imm => .reg n (alu .xor (s.reg n) (immOperand imm))
  | .lsli n sss => .reg n (alu .lsl (s.reg n) (shiftOperand sss))
  | .asri n sss => .reg n (alu .asr (s.reg n) (shiftOperand sss))
  | .jump b a => .jump (lowByte (s.reg b)) (s.reg a)
  | .bz r off => .branch (isZero (s.reg r)) off
  | .bnz r off => .branch (isNotZero (s.reg r)) off
  | .bpl r off => .branch (isPlus (s.reg r)) off
  | .bmi r off => .branch (isMinus (s.reg r)) off
  | .bra off => .branch true off
  | .banki imm => .setDb (lowByte (immOperand imm))
  | .bank b => .setDb (lowByte (s.reg b))
  | .swhl d b => .reg d (swapBytes (s.reg b))
  | .halt => .halt

/-! ### Effects and the meanings of the instructions -/

/-- A load completes exactly where MemMap admits it, and then its effect is the load's. -/
theorem finishLoad_eq_next_iff {d : Reg} {ea : Word} {s t : State} :
    finishLoad d ea s = .next t ↔
      admits s.platform .load (s.dataAddr ea) = true ∧ t = (Effect.load d ea).apply s := by
  rw [finishLoad_eq]
  split <;> simp [Effect.apply, *, eq_comm]

/-- A store completes exactly where MemMap admits it, and then its effect is the store's. -/
theorem finishStore_eq_next_iff {src : Reg} {ea : Word} {s t : State} :
    finishStore src ea s = .next t ↔
      admits s.platform .store (s.dataAddr ea) = true ∧ t = (Effect.store (s.reg src) ea).apply s := by
  rw [finishStore_eq]
  split <;> simp [Effect.apply, *, eq_comm]

/-- A branch always completes, taken or not. -/
theorem finishBranch_eq (cond : Bool) (off : Byte) (s : State) :
    finishBranch cond off s = .next ((Effect.branch cond off).apply s) := by
  cases cond <;> rfl

/-- The two sides of a completed answer, in the form of `exec_eq_next_iff` for an instruction that makes no data
access. -/
theorem next_eq_next_iff {r : Answer} {t u : State} (h : r = .next u) :
    r = .next t ↔ true = true ∧ t = u := by
  simp [h, eq_comm]

/-- An instruction completes exactly where MemMap admits its data access, and then the next state is the one its
effect leads to. -/
theorem exec_eq_next_iff {i : Instr} {s t : State} :
    exec i s = .next t ↔ dataAdmitted s i = true ∧ t = (effectOf s i).apply s := by
  cases i with
  | ld | ldadd | ldsub => exact finishLoad_eq_next_iff
  | st | stadd | stsub => exact finishStore_eq_next_iff
  | bz | bnz | bpl | bmi | bra => exact next_eq_next_iff (finishBranch_eq ..)
  | _ => exact next_eq_next_iff rfl

/-- The next state of an instruction that completes. -/
theorem eq_apply_of_exec {i : Instr} {s t : State} (h : exec i s = .next t) :
    t = (effectOf s i).apply s :=
  (exec_eq_next_iff.mp h).2

theorem effectOf_dest (s : State) (i : Instr) : (effectOf s i).dest = destOf i := by
  cases i <;> rfl

theorem effectOf_access (s : State) (i : Instr) : (effectOf s i).access s = dataAccess s i := by
  cases i <;> rfl

/-! ### PC and IB -/

theorem isZero_eq (v : Word) : isZero v = decide (v = 0x0000#16) := rfl

theorem isNotZero_eq (v : Word) : isNotZero v = !decide (v = 0x0000#16) := rfl

/-- Bit 15 is the sign of the two's complement reading. -/
theorem isMinus_eq (v : Word) : isMinus v = decide (v.toInt < 0) := by
  rw [← BitVec.msb_eq_toInt, BitVec.msb_eq_getLsbD_last]
  rfl

theorem isPlus_eq (v : Word) : isPlus v = !decide (v.toInt < 0) :=
  congrArg (!·) (isMinus_eq v)

theorem effectOf_apply_pc (s : State) (i : Instr) : ((effectOf s i).apply s).pc = nextPc s i := by
  cases i with
  | bz => simp [effectOf, Effect.apply, nextPc, isZero_eq]
  | bnz => simp [effectOf, Effect.apply, nextPc, isNotZero_eq]
  | bpl r => by_cases hs : (s.reg r).toInt < 0 <;> simp [effectOf, Effect.apply, nextPc, isPlus_eq, hs]
  | bmi => simp [effectOf, Effect.apply, nextPc, isMinus_eq]
  | _ => rfl

theorem effectOf_apply_ib (s : State) (i : Instr) : ((effectOf s i).apply s).ib = nextIb s i := by
  cases i <;> rfl

theorem nextIb_eq_of_ne_jump {i : Instr} (s : State) (h : ∀ b a, i ≠ .jump b a) :
    nextIb s i = s.ib := by
  cases i with
  | jump b a => exact absurd rfl (h b a)
  | _ => rfl

/-- Settles O46: the effect of an instruction leaves `PC` and `IB` where the four ways of R24 say. -/
theorem pcIsSetInFourWays : Obligations.PcIsSetInFourWays := by
  intro i s t h
  rw [eq_apply_of_exec h]
  exact ⟨effectOf_apply_pc s i, effectOf_apply_ib s i⟩

/-- Settles O47: the increment of 0xFFFF is 0x0000 modulo 2^16, and only `jump` writes `IB`. -/
theorem incrementWrapsInBank : Obligations.IncrementWrapsInBank := by
  intro i s t h hpc hnext hjump
  obtain ⟨htpc, htib⟩ := pcIsSetInFourWays i s t h
  exact ⟨by rw [htpc, hnext, hpc]; rfl, htib.trans (nextIb_eq_of_ne_jump s hjump)⟩

/-! ### DB -/

/-- The bank of `banki` is its literal: the promotion to 16 bits keeps the low byte (R66, R180). -/
theorem lowByte_immOperand (imm : Byte) : lowByte (immOperand imm) = imm := by
  simp [lowByte, immOperand, BitVec.extractLsb'_setWidth_of_le]

theorem effectOf_apply_db (s : State) (i : Instr) : ((effectOf s i).apply s).db = nextDb s i := by
  cases i with
  | banki imm => exact lowByte_immOperand imm
  | _ => rfl

/-- An instruction that does not use `DB` makes no data access, so it completes. -/
theorem dataAdmitted_of_not_usesDb {i : Instr} (s : State) (h : usesDb i = false) :
    dataAdmitted s i = true := by
  cases i with
  | ld | ldadd | ldsub | st | stadd | stsub => cases h
  | _ => rfl

/-- The states agree on everything an instruction can show but `DB`, the draws and the parameters. -/
def AgreeButDb (t u : State) : Prop :=
  u.regs = t.regs ∧ u.pc = t.pc ∧ u.ib = t.ib ∧ u.halted = t.halted ∧ u.mem = t.mem

/-- What an instruction does that does not use `DB` is the same for every value of `DB`. -/
theorem effectOf_apply_agreeButDb {i : Instr} (s : State) (db : Byte) (h : usesDb i = false) :
    AgreeButDb ((effectOf s i).apply s)
      ((effectOf { s with db := db } i).apply { s with db := db }) := by
  cases i with
  | ld | ldadd | ldsub | st | stadd | stsub => cases h
  | _ => exact ⟨rfl, rfl, rfl, rfl, rfl⟩

/-- Settles O48: the effects of `banki` and `bank` are the ones that write `DB`, and the effects of the loads and
stores are the ones that read it. -/
theorem dbIsReadOnlyByLoadsAndStores : Obligations.DbIsReadOnlyByLoadsAndStores := by
  refine ⟨fun i s t h => ?_, fun i s db h => ?_⟩
  · rw [eq_apply_of_exec h]
    exact effectOf_apply_db s i
  · exact ⟨_, _, exec_eq_next_iff.mpr ⟨dataAdmitted_of_not_usesDb s h, rfl⟩,
      exec_eq_next_iff.mpr ⟨dataAdmitted_of_not_usesDb _ h, rfl⟩,
      effectOf_apply_agreeButDb s db h⟩

/-! ### The registers -/

theorem Effect.reg_apply_of_dest_ne {e : Effect} {r : Reg} (s : State) (h : e.dest ≠ some r) :
    (e.apply s).reg r = s.reg r := by
  cases e with
  | reg c | regDraw c | load c =>
    have hr : r ≠ c := fun hrc => h (congrArg some hrc.symm)
    simp [Effect.apply, hr]
  | _ => rfl

/-- Settles O50: an effect writes its destination only, which is the instruction's. -/
theorem onlyTheDestinationIsWritten : Obligations.OnlyTheDestinationIsWritten := by
  intro i s t r h hr
  rw [eq_apply_of_exec h]
  exact Effect.reg_apply_of_dest_ne s (by rwa [effectOf_dest])

/-- The states agree on everything but the register `r` and the parameters. -/
def AgreeButReg (r : Reg) (t u : State) : Prop :=
  (∀ q, q ≠ r → u.reg q = t.reg q) ∧ u.pc = t.pc ∧ u.ib = t.ib ∧ u.db = t.db ∧
    u.halted = t.halted ∧ u.mem = t.mem ∧ u.draws = t.draws

/-- Writing one register with the same value keeps the agreement of the registers. -/
theorem reg_setReg_congr {s s' : State} {q : Reg} (c : Reg) (v : Word) (h : s'.reg q = s.reg q) :
    (s'.setReg c v).reg q = (s.setReg c v).reg q := by
  by_cases hq : q = c
  · subst hq
    simp
  · simp [hq, h]

/-- The same effect in two states that differ in one register leads to states that differ in it at most. -/
theorem Effect.apply_setReg_agree (e : Effect) (s : State) (r : Reg) (v : Word) :
    AgreeButReg r (e.apply s) (e.apply (s.setReg r v)) := by
  refine ⟨fun q hq => ?_, ?_⟩
  · have hs : (s.setReg r v).reg q = s.reg q := reg_setReg_ne s v hq
    cases e with
    | reg c w => exact reg_setReg_congr c w hs
    | regDraw c w => exact reg_setReg_congr (s := s.takeDraw) (s' := (s.setReg r v).takeDraw) c w hs
    | load d ea => exact reg_setReg_congr d _ hs
    | _ => exact hs
  · cases e <;> exact ⟨rfl, rfl, rfl, rfl, rfl, rfl⟩

/-- What an instruction does is computed from its sources, and from no other register. -/
theorem effectOf_setReg {i : Instr} {r : Reg} (s : State) (v : Word) (h : r ∉ sourcesOf i) :
    effectOf (s.setReg r v) i = effectOf s i := by
  have hsrc : ∀ q ∈ sourcesOf i, (s.setReg r v).reg q = s.reg q := fun q hq =>
    reg_setReg_ne s v fun hqr => h (hqr ▸ hq)
  cases i <;> simp_all [effectOf, sourcesOf, eaB, eaSum, eaDiff, State.drawnByte]

theorem dataAccess_setReg {i : Instr} {r : Reg} (s : State) (v : Word) (h : r ∉ sourcesOf i) :
    dataAccess (s.setReg r v) i = dataAccess s i := by
  rw [← effectOf_access, ← effectOf_access, effectOf_setReg s v h]
  cases effectOf s i <;> rfl

/-- Settles O51: a register that is not a source changes neither the effect nor its admission, and the same effect
carries it nowhere. -/
theorem onlyTheSourcesAreRead : Obligations.OnlyTheSourcesAreRead := by
  intro i s r v hr t h
  obtain ⟨hadm, rfl⟩ := exec_eq_next_iff.mp h
  have hadm' : dataAdmitted (s.setReg r v) i = true := by
    rw [dataAdmitted, dataAccess_setReg s v hr]
    exact hadm
  refine ⟨_, exec_eq_next_iff.mpr ⟨hadm', rfl⟩, ?_⟩
  rw [effectOf_setReg s v hr]
  exact Effect.apply_setReg_agree (effectOf s i) s r v

end Sys2Proof.Machine
end

section
/-! The step and the halt latch (10_state.md R23, R31): which word is `halt`, and what sets the latch. -/

namespace Sys2Proof.Machine

open Sys2Proof

theorem decodeRegOp_ne_halt (w : Word) : decodeRegOp w ≠ .ok .halt := by
  fun_cases decodeRegOp w <;> simp

theorem decodeRead_ne_halt (w : Word) : decodeRead w ≠ .ok .halt := by
  fun_cases decodeRead w <;> simp

theorem decodeMove_ne_halt (w : Word) : decodeMove w ≠ .ok .halt := by
  fun_cases decodeMove w <;> simp

theorem decodeWrite_ne_halt (w : Word) : decodeWrite w ≠ .ok .halt := by
  fun_cases decodeWrite w <;> simp

theorem decodeType0_ne_halt (w : Word) : decodeType0 w ≠ .ok .halt := by
  fun_cases decodeType0 w <;>
    simp [decodeRegOp_ne_halt, decodeRead_ne_halt, decodeMove_ne_halt, decodeWrite_ne_halt]

theorem decodeType1_ne_halt (w : Word) : decodeType1 w ≠ .ok .halt := by
  fun_cases decodeType1 w <;> simp

theorem decodeType2_ne_halt (w : Word) : decodeType2 w ≠ .ok .halt := by
  fun_cases decodeType2 w <;> simp

theorem eq_of_decodeType3_eq_halt {w : Word} : decodeType3 w = .ok .halt → w = 0xC007#16 := by
  fun_cases decodeType3 w <;> simp [*]

/-- 0xC007 is the only word of `halt` (R183). -/
theorem decode_eq_halt_iff (w : Word) : decode w = .ok .halt ↔ w = 0xC007#16 := by
  refine ⟨fun h => ?_, by rintro rfl; decide⟩
  unfold decode at h
  split at h
  · exact absurd h (decodeType0_ne_halt w)
  · exact absurd h (decodeType1_ne_halt w)
  · exact absurd h (decodeType2_ne_halt w)
  · exact eq_of_decodeType3_eq_halt h

theorem effectOf_apply_halted (s : State) (i : Instr) :
    ((effectOf s i).apply s).halted = true ↔ s.halted = true ∨ i = .halt := by
  cases i with
  | halt => simp [effectOf, Effect.apply]
  | _ => exact (or_iff_left nofun).symm

/-- Settles O49: only the effect of `halt` sets the latch; a step starts with the latch clear and executes the
fetched word, and only 0xC007 is `halt`. -/
theorem onlyHaltSetsTheLatch : Obligations.OnlyHaltSetsTheLatch := by
  have hexec (i : Instr) (s t : State) (h : exec i s = .next t) :
      t.halted = true ↔ s.halted = true ∨ i = .halt := by
    rw [eq_apply_of_exec h]
    exact effectOf_apply_halted s i
  refine ⟨hexec, fun s t h => ?_⟩
  obtain ⟨hrun, -, i, hdec, hi⟩ := step_next_cases h
  rw [hexec i s t hi, ← decode_eq_halt_iff, hdec]
  simp [hrun]

/-- Settles O7: the fetch address is two fields side by side, and a step wraps nothing around `exec`. -/
theorem stepRunsDecoded : Obligations.StepRunsDecoded :=
  fun s _ => ⟨toNat_bank_append s.ib s.pc, step_decoded⟩

/-- Settles O9: the halt latch is looked at before the fetch. -/
theorem haltedMakesNoStep : Obligations.HaltedMakesNoStep := by
  intro s h
  simp [step, h]

end Sys2Proof.Machine
end

section
/-! Memory (20_memory.md): what a write changes, the canonical form, loads and stores in program order, and what
MemMap admits. -/

namespace Sys2Proof.Machine

open Sys2Proof

/-! ### Reads and writes -/

/-- Only the effect of a store writes memory. -/
theorem effectOf_apply_mem {i : Instr} (s : State) (h : isStore i = false) :
    ((effectOf s i).apply s).mem = s.mem := by
  cases i with
  | st | stadd | stsub => cases h
  | _ => rfl

/-- Settles O38: the laws of reads after a write, and the effect of every instruction that is no store. -/
theorem memWriteChangesOneWord : Obligations.MemWriteChangesOneWord := by
  refine ⟨fun m a v => ⟨read_write_same m a v, fun _ h => read_write_ne m v h⟩, fun i s t h hi => ?_⟩
  rw [eq_apply_of_exec h]
  exact effectOf_apply_mem s hi

/-! ### The canonical form -/

theorem wfFrom_cons_iff {lo k : Nat} {v : Word} {m : Memory} :
    Memory.wfFrom lo ((k, v) :: m) = true ↔
      lo ≤ k ∧ k < 16777216 ∧ v ≠ Config.unlistedWord ∧ m.wfFrom (k + 1) = true := by
  simp [Memory.wfFrom, and_assoc]

/-- A canonical memory lists nothing below its least key. -/
theorem readKey_below_wfFrom {m : Memory} {lo key : Nat} (w : m.wfFrom lo = true) (h : key < lo) :
    m.readKey key = Config.unlistedWord := by
  induction m generalizing lo with
  | nil => rfl
  | cons p m ih =>
    obtain ⟨k, v⟩ := p
    obtain ⟨hlo, -, -, hm⟩ := wfFrom_cons_iff.mp w
    have hk : k ≠ key := by omega
    simpa [Memory.readKey, hk] using ih hm (by omega)

/-- A listed word is missed by a canonical memory that starts above it. -/
theorem readKey_head_ne {m n : Memory} {k : Nat} {v : Word} (hv : v ≠ Config.unlistedWord)
    (hn : n.wfFrom (k + 1) = true) : Memory.readKey ((k, v) :: m) k ≠ n.readKey k := by
  rw [readKey_below_wfFrom hn (Nat.lt_succ_self k)]
  simpa [Memory.readKey] using hv

/-- Canonical memories that read alike at every key below 2^24 are equal: their first keys agree, since the
lesser one would be listed in one memory only, and the rests list nothing at it. -/
theorem eq_of_readKey_eq {m n : Memory} {lo : Nat} (hm : m.wfFrom lo = true) (hn : n.wfFrom lo = true)
    (h : ∀ key < 16777216, m.readKey key = n.readKey key) : m = n := by
  induction m generalizing lo n with
  | nil =>
    cases n with
    | nil => rfl
    | cons q n =>
      obtain ⟨-, hq, hv, -⟩ := wfFrom_cons_iff.mp hn
      exact absurd (h q.1 hq).symm (readKey_head_ne hv rfl)
  | cons p m ih =>
    obtain ⟨k, v⟩ := p
    obtain ⟨-, hk, hv, hm'⟩ := wfFrom_cons_iff.mp hm
    cases n with
    | nil => exact absurd (h k hk) (readKey_head_ne hv rfl)
    | cons q n =>
      obtain ⟨k', v'⟩ := q
      obtain ⟨-, hk', hv', hn'⟩ := wfFrom_cons_iff.mp hn
      rcases Nat.lt_trichotomy k k' with hlt | rfl | hlt
      · exact absurd (h k hk) (readKey_head_ne hv (wfFrom_cons_iff.mpr ⟨hlt, hk', hv', hn'⟩))
      · have hvv : v = v' := by simpa [Memory.readKey] using h k hk
        have hrest : m = n := ih hm' hn' fun key hkey => by
          by_cases hkk : k = key
          · subst hkk
            rw [readKey_below_wfFrom hm' (Nat.lt_succ_self k),
              readKey_below_wfFrom hn' (Nat.lt_succ_self k)]
          · simpa [Memory.readKey, hkk] using h key hkey
        rw [hvv, hrest]
      · exact absurd (h k' hk').symm (readKey_head_ne hv' (wfFrom_cons_iff.mpr ⟨hlt, hk, hv, hm'⟩))

/-- Settles O39: every key below 2^24 is the number of an address. -/
theorem canonicalMemoriesAreEqual : Obligations.CanonicalMemoriesAreEqual := by
  intro m n hm hn h
  refine eq_of_readKey_eq hm hn fun key hkey => ?_
  have haddr : (BitVec.ofNat 24 key).toNat = key := Nat.mod_eq_of_lt hkey
  simpa [Memory.read, haddr] using h (BitVec.ofNat 24 key)

/-! ### Loads and fetches after a store -/

/-- A load after a store with the same address form gives the stored register, where the store leaves the effective
address as it was. -/
theorem finishLoad_after_finishStore (ea : State → Word) (src d : Reg) (s : State)
    (hea : ea ((Effect.store (s.reg src) (ea s)).apply s) = ea s)
    (hst : admits s.platform .store (s.dataAddr (ea s)) = true)
    (hld : admits s.platform .load (s.dataAddr (ea s)) = true) :
    ∃ t u, finishStore src (ea s) s = .next t ∧ finishLoad d (ea t) t = .next u ∧
      u.reg d = s.reg src := by
  refine ⟨_, _, finishStore_eq_next_iff.mpr ⟨hst, rfl⟩, finishLoad_eq_next_iff.mpr ⟨?_, rfl⟩, ?_⟩
  · rw [hea]
    exact hld
  · rw [hea]
    exact (reg_setReg_same _ d _).trans (read_write_same s.mem _ _)

/-- Settles O40: the effective address is computed from registers, which a store keeps. -/
theorem loadGivesLastStore : Obligations.LoadGivesLastStore :=
  ⟨fun src b d s => finishLoad_after_finishStore (eaB b) src d s rfl,
    fun src a b d s => finishLoad_after_finishStore (eaSum a b) src d s rfl,
    fun src a b d s => finishLoad_after_finishStore (eaDiff a b) src d s rfl⟩

/-- The step of a running CPU after a store to its fetch address executes the stored word (R53). -/
theorem step_after_finishStore {src : Reg} {ea : Word} {s t : State} {i : Instr}
    (hrun : s.halted = false) (hfetch : admits s.platform .fetch t.fetchAddr = true)
    (hdec : decode (s.reg src) = .ok i) (h : finishStore src ea s = .next t)
    (haddr : s.dataAddr ea = t.fetchAddr) : step t = exec i t := by
  obtain ⟨-, rfl⟩ := finishStore_eq_next_iff.mp h
  refine step_decoded hrun hfetch ?_
  rw [← haddr]
  exact (congrArg decode (read_write_same ..)).trans hdec

/-- Settles O41: each store is `finishStore` at its own effective address. -/
theorem storedWordIsFetchedNext : Obligations.StoredWordIsFetchedNext := by
  intro src a b s t i hrun hfetch hdec
  have hstep (ea : Word) : finishStore src ea s = .next t → s.dataAddr ea = t.fetchAddr →
      step t = exec i t := step_after_finishStore hrun hfetch hdec
  exact ⟨hstep (eaB b s), hstep (eaSum a b s), hstep (eaDiff a b s)⟩

/-! ### MemMap -/

theorem kindIn_cons_of_inRegion {r : Region} {a : Addr} (rest : List Region) (h : InRegion r a) :
    kindIn (r :: rest) a = r.kind := if_pos h

theorem kindIn_cons_of_not_inRegion {r : Region} {a : Addr} (rest : List Region) (h : ¬ InRegion r a) :
    kindIn (r :: rest) a = kindIn rest a := if_neg h

/-- Regions that do not hold the address can be skipped. -/
theorem kindIn_append_of_not_inRegion {before : List Region} {a : Addr} (rest : List Region)
    (h : ∀ q ∈ before, ¬ InRegion q a) : kindIn (before ++ rest) a = kindIn rest a := by
  induction before with
  | nil => rfl
  | cons q before ih =>
    obtain ⟨hq, hbefore⟩ := List.forall_mem_cons.mp h
    exact (kindIn_cons_of_not_inRegion _ hq).trans (ih hbefore)

theorem kindIn_of_not_inRegion {regions : List Region} {a : Addr} (h : ∀ q ∈ regions, ¬ InRegion q a) :
    kindIn regions a = .absent := by
  simpa [kindIn] using kindIn_append_of_not_inRegion [] h

theorem kindAdmits_iff (kind : RegionKind) (k : Access) :
    kindAdmits kind k = true ↔ kind = .storage ∨ kind = .readOnly ∧ k ≠ .store := by
  cases kind <;> cases k <;> decide

theorem kindAdmits_absent (k : Access) : kindAdmits .absent k = false := by
  cases k <;> rfl

/-- Settles O42: the first region that holds the address gives the kind, and the kind what is admitted. -/
theorem memMapAdmits : Obligations.MemMapAdmits := by
  refine ⟨fun p before after r k a hp hbefore hr => ?_, fun p k a h => ?_, fun p k a hp => ?_⟩
  · rw [admits, hp, kindIn_append_of_not_inRegion _ hbefore, kindIn_cons_of_inRegion _ hr]
    exact kindAdmits_iff r.kind k
  · rw [admits, kindIn_of_not_inRegion h, kindAdmits_absent]
  · rw [admits, hp]
    exact admits_default k a

/-- A data access that MemMap does not admit is the fault that names it. -/
theorem exec_notAdmitted {i : Instr} {s : State} {k : Access} {a : Addr}
    (hacc : dataAccess s i = some (k, a)) (hadm : admits s.platform k a = false) :
    exec i s = .fault (.notAdmitted k a) := by
  rcases exec_access_cases i s with ⟨hnone, -⟩ | ⟨d, ea, hload, hexec⟩ | ⟨src, ea, hstore, hexec⟩
  · simp [hnone] at hacc
  · obtain ⟨rfl, rfl⟩ : _ ∧ _ := by simpa [hload] using hacc
    simp [hexec, finishLoad_eq, hadm]
  · obtain ⟨rfl, rfl⟩ : _ ∧ _ := by simpa [hstore] using hacc
    simp [hexec, finishStore_eq, hadm]

/-- A running CPU makes no step where MemMap does not admit its fetch. -/
theorem step_fetch_notAdmitted {s : State} (hrun : s.halted = false)
    (hadm : admits s.platform .fetch s.fetchAddr = false) :
    step s = .fault (.notAdmitted .fetch s.fetchAddr) := by
  simp [step, hrun, fetch_notAdmitted hadm]

/-- Settles O43: `exec_eq_next_iff` says where an instruction completes, and the other accesses are faults. -/
theorem notAdmittedAccessHasNoStep : Obligations.NotAdmittedAccessHasNoStep :=
  ⟨fun _ _ => ⟨fun h => ⟨_, exec_eq_next_iff.mpr ⟨h, rfl⟩⟩, fun ⟨_, h⟩ => (exec_eq_next_iff.mp h).1⟩,
    fun _ _ _ _ => exec_notAdmitted, fun _ => step_fetch_notAdmitted⟩

/-! ### Every address is reached -/

/-- An address is its bank and its low 16 bits (R23, R42). -/
theorem bank_append_low (a : Addr) : (a.extractLsb' 16 8 ++ a.extractLsb' 0 16 : Addr) = a := by
  refine BitVec.eq_of_toNat_eq ((toNat_bank_append ..).trans ?_)
  have ha : a.toNat < 16777216 := a.isLt
  simp only [BitVec.extractLsb'_toNat, Nat.shiftRight_eq_div_pow]
  omega

/-- Settles O53: `banki` and `jump` set the bank and leave the low 16 bits to the program, and no bank is refused. -/
theorem everyWordIsReachable : Obligations.EveryWordIsReachable := by
  intro s a q r hqr
  refine ⟨⟨_, rfl, ?_⟩, ⟨_, rfl, ?_⟩⟩
  · show (lowByte (immOperand _) ++ _ : Addr) = a
    rw [lowByte_immOperand]
    exact bank_append_low a
  · show (lowByte (State.reg _ q) ++ State.reg _ r : Addr) = a
    rw [reg_setReg_same, reg_setReg_ne _ _ hqr, reg_setReg_same]
    exact (congrArg (· ++ _) (lowByte_immOperand _)).trans (bank_append_low a)

end Sys2Proof.Machine
end

section
/-! The words the decoder rejects (30_encoding.md R61 to R78): fields side by side, then what each part of the
decoder rejects, then R78's list. -/

namespace Sys2Proof

open Sys2Proof.Machine

/-! ### Fields side by side -/

/-- The field that two adjacent fields make holds a value exactly when each of the two holds its part of it. -/
theorem adjacent_fields_eq_iff {n start len₁ len₂ : Nat} (x : BitVec n) (v : BitVec (len₂ + len₁)) :
    x.extractLsb' start (len₂ + len₁) = v ↔
      x.extractLsb' (start + len₁) len₂ = v.extractLsb' len₁ len₂ ∧
        x.extractLsb' start len₁ = v.extractLsb' 0 len₁ := by
  rw [← BitVec.extractLsb'_append_extractLsb'_eq_extractLsb' rfl]
  constructor
  · rintro rfl
    exact ⟨BitVec.extractLsb'_append_eq_left.symm, BitVec.extractLsb'_append_eq_right.symm⟩
  · rintro ⟨hhigh, hlow⟩
    rw [hhigh, hlow, BitVec.extractLsb'_append_extractLsb']

section

variable (w : Word)

/-- Bits [4:0] of a Type 0 word are the mode and the operation (R63, R64). -/
theorem low_eq_iff (v : BitVec 5) :
    w.extractLsb' 0 5 = v ↔ modeField w = v.extractLsb' 3 2 ∧ opField w = v.extractLsb' 0 3 :=
  adjacent_fields_eq_iff (start := 0) (len₁ := 3) (len₂ := 2) w v

/-- A range of bits [4:0] inside one mode is a range of operations. -/
theorem low_between_iff (m : BitVec 2) (least most : BitVec 3) :
    m ++ least ≤ w.extractLsb' 0 5 ∧ w.extractLsb' 0 5 ≤ m ++ most ↔
      modeField w = m ∧ least ≤ opField w ∧ opField w ≤ most := by
  have hnum : ∀ (x : BitVec 2) (y : BitVec 3), (x ++ y).toNat = x.toNat * 8 + y.toNat := by decide
  have hlow : w.extractLsb' 0 5 = modeField w ++ opField w := (low_eq_iff w _).mpr
    ⟨BitVec.extractLsb'_append_eq_left.symm, BitVec.extractLsb'_append_eq_right.symm⟩
  rw [hlow]
  simp only [BitVec.le_def, BitVec.toNat_eq, hnum]
  omega

theorem readOperation_range_iff :
    0b01011#5 ≤ w.extractLsb' 0 5 ∧ w.extractLsb' 0 5 ≤ 0b01111#5 ↔
      modeField w = 1#2 ∧ 3#3 ≤ opField w ∧ opField w ≤ 7#3 :=
  low_between_iff w 0b01#2 0b011#3 0b111#3

theorem moveOperation_range_iff :
    0b10001#5 ≤ w.extractLsb' 0 5 ∧ w.extractLsb' 0 5 ≤ 0b10111#5 ↔
      modeField w = 2#2 ∧ 1#3 ≤ opField w ∧ opField w ≤ 7#3 :=
  low_between_iff w 0b10#2 0b001#3 0b111#3

theorem writeOperation_range_iff :
    0b11011#5 ≤ w.extractLsb' 0 5 ∧ w.extractLsb' 0 5 ≤ 0b11111#5 ↔
      modeField w = 3#2 ∧ 3#3 ≤ opField w ∧ opField w ≤ 7#3 :=
  low_between_iff w 0b11#2 0b011#3 0b111#3

theorem moveField_eq_iff (v : BitVec 11) :
    moveField w = v ↔ w.extractLsb' 5 6 = v.extractLsb' 5 6 ∧ w.extractLsb' 0 5 = v.extractLsb' 0 5 :=
  adjacent_fields_eq_iff (start := 0) (len₁ := 5) (len₂ := 6) w v

theorem caFields_eq_zero_iff : w.extractLsb' 8 6 = 0#6 ↔ cField w = 0#3 ∧ aField w = 0#3 :=
  adjacent_fields_eq_iff (start := 8) (len₁ := 3) (len₂ := 3) w 0#6

/-- The immediate of a shift whose bits [10:6] are zero is its amount (R65, R67). -/
theorem immField_eq_shiftImm_iff : immField w = shiftImm (shiftField w) ↔ shiftHighField w = 0#5 := by
  refine (adjacent_fields_eq_iff (start := 3) (len₁ := 3) (len₂ := 5) w _).trans ?_
  rw [shiftHighField_shiftImm, shiftField_shiftImm]
  exact and_iff_left rfl

/-- The word of `halt`, field by field (R183). -/
theorem eq_haltWord_iff :
    w = 0xC007#16 ↔ typeField w = 3#2 ∧ w.extractLsb' 3 11 = 0#11 ∧ opField w = 7#3 := by
  have hfoot : w.extractLsb' 0 14 = 0x0007#14 ↔ _ :=
    adjacent_fields_eq_iff (start := 0) (len₁ := 3) (len₂ := 11) w 0x0007#14
  have hword : w.extractLsb' 0 16 = 0xC007#16 ↔ _ :=
    adjacent_fields_eq_iff (start := 0) (len₁ := 14) (len₂ := 2) w 0xC007#16
  rw [BitVec.extractLsb'_eq_self] at hword
  exact hword.trans (and_congr_right fun _ => hfoot)

/-- The pattern of `movib`, which the decoder looks for first, is of mode 10 (R72, R119). -/
theorem moveField_eq_movibLow_iff :
    moveField w = Config.movibLow ↔ w.extractLsb' 5 6 = 1#6 ∧ modeField w = 2#2 ∧ opField w = 0#3 := by
  rw [moveField_eq_iff, low_eq_iff]
  rfl

theorem moveField_eq_movpcLow_iff :
    moveField w = movpcLow ↔ w.extractLsb' 5 6 = 0#6 ∧ modeField w = 2#2 ∧ opField w = 0#3 := by
  rw [moveField_eq_iff, low_eq_iff]
  rfl

end

/-! ### Selectors -/

/-- The bits a selector stands for. -/
def Sel2.bits : Sel2 → BitVec 2
  | .s00 => 0b00#2
  | .s01 => 0b01#2
  | .s10 => 0b10#2
  | .s11 => 0b11#2

/-- The bits a selector stands for. -/
def Sel3.bits : Sel3 → BitVec 3
  | .s000 => 0b000#3
  | .s001 => 0b001#3
  | .s010 => 0b010#3
  | .s011 => 0b011#3
  | .s100 => 0b100#3
  | .s101 => 0b101#3
  | .s110 => 0b110#3
  | .s111 => 0b111#3

theorem sel2_eq_iff (v : BitVec 2) (x : Sel2) : sel2 v = x ↔ v = x.bits := by
  revert v
  cases x <;> decide

theorem sel3_eq_iff (v : BitVec 3) (x : Sel3) : sel3 v = x ↔ v = x.bits := by
  revert v
  cases x <;> decide

/-! ### What each part of the decoder rejects -/

section

variable {w : Word} {u : Undefined}

theorem decodeRegOp_eq_error_iff :
    decodeRegOp w = .error u ↔ .fieldASet = u ∧ opField w = 0#3 ∧ aField w ≠ 0#3 := by
  have hnop : aField 0x0000#16 = 0#3 := rfl
  fun_cases decodeRegOp w <;> simp_all [sel3_eq_iff, Sel3.bits]

theorem decodeRead_eq_error_iff :
    decodeRead w = .error u ↔
      .fieldASet = u ∧ opField w = 0#3 ∧ aField w ≠ 0#3 ∨
      .readOperation = u ∧ 3#3 ≤ opField w ∧ opField w ≤ 7#3 := by
  fun_cases decodeRead w <;> simp_all [sel3_eq_iff, Sel3.bits]

theorem decodeMove_eq_error_iff :
    decodeMove w = .error u ↔
      .moveFields = u ∧ opField w = 0#3 ∧ moveField w ≠ movpcLow ∨
      .moveOperation = u ∧ 1#3 ≤ opField w ∧ opField w ≤ 7#3 := by
  fun_cases decodeMove w <;> simp_all [sel3_eq_iff, Sel3.bits]

theorem decodeWrite_eq_error_iff :
    decodeWrite w = .error u ↔
      .fieldASet = u ∧ opField w = 0#3 ∧ aField w ≠ 0#3 ∨
      .writeOperation = u ∧ 3#3 ≤ opField w ∧ opField w ≤ 7#3 := by
  fun_cases decodeWrite w <;> simp_all [sel3_eq_iff, Sel3.bits]

theorem decodeType0_eq_error_iff :
    decodeType0 w = .error u ↔
      modeField w = 0#2 ∧ decodeRegOp w = .error u ∨
      modeField w = 1#2 ∧ decodeRead w = .error u ∨
      modeField w = 2#2 ∧ moveField w ≠ Config.movibLow ∧ decodeMove w = .error u ∨
      modeField w = 3#2 ∧ decodeWrite w = .error u := by
  fun_cases decodeType0 w with
  | case1 hmovib => simp_all [moveField_eq_movibLow_iff]
  | _ => simp_all [sel2_eq_iff, Sel2.bits]

/-- What the decoder rejects of Type 0, by bits [4:0], as R78 lists it. -/
theorem decodeType0_eq_error_iff_low :
    decodeType0 w = .error u ↔
      .fieldASet = u ∧ (w.extractLsb' 0 5 = 0b00000#5 ∨ w.extractLsb' 0 5 = 0b01000#5 ∨
        w.extractLsb' 0 5 = 0b11000#5) ∧ aField w ≠ 0#3 ∨
      .readOperation = u ∧ 0b01011#5 ≤ w.extractLsb' 0 5 ∧ w.extractLsb' 0 5 ≤ 0b01111#5 ∨
      .writeOperation = u ∧ 0b11011#5 ≤ w.extractLsb' 0 5 ∧ w.extractLsb' 0 5 ≤ 0b11111#5 ∨
      .moveFields = u ∧ w.extractLsb' 0 5 = 0b10000#5 ∧
        w.extractLsb' 5 6 ≠ 0#6 ∧ w.extractLsb' 5 6 ≠ 1#6 ∨
      .moveOperation = u ∧ 0b10001#5 ≤ w.extractLsb' 0 5 ∧ w.extractLsb' 0 5 ≤ 0b10111#5 := by
  simp only [low_eq_iff, readOperation_range_iff, writeOperation_range_iff, moveOperation_range_iff,
    decodeType0_eq_error_iff, decodeRegOp_eq_error_iff, decodeRead_eq_error_iff, decodeMove_eq_error_iff,
    decodeWrite_eq_error_iff]
  cases u with
  | fieldASet => simp [or_and_right, and_assoc]
  | moveFields =>
    simp [moveField_eq_movibLow_iff, moveField_eq_movpcLow_iff]
    tauto
  | moveOperation =>
    have hmovib (hop : 1#3 ≤ opField w) : moveField w ≠ Config.movibLow := by
      rw [Ne, moveField_eq_movibLow_iff]
      rintro ⟨-, -, hzero⟩
      exact absurd (hzero ▸ hop) (by decide)
    simp
    tauto
  | _ => simp

theorem decodeType1_eq_error_iff :
    decodeType1 w = .error u ↔
      .shiftAmountHigh = u ∧ (opField w = 6#3 ∨ opField w = 7#3) ∧ shiftHighField w ≠ 0#5 := by
  fun_cases decodeType1 w <;> simp_all [sel3_eq_iff, Sel3.bits]

theorem decodeType2_eq_error_iff :
    decodeType2 w = .error u ↔
      .jumpFields = u ∧ opField w = 0#3 ∧ ¬ (cField w = 0#3 ∧ modeField w = 0#2) ∨
      .type2Operation = u ∧ (opField w = 1#3 ∨ opField w = 2#3) ∨
      .braFields = u ∧ opField w = 7#3 ∧ cField w ≠ 0#3 := by
  fun_cases decodeType2 w <;> simp_all [sel3_eq_iff, Sel3.bits]

theorem decodeType3_eq_error_iff :
    decodeType3 w = .error u ↔
      .bankiFields = u ∧ opField w = 1#3 ∧ cField w ≠ 0#3 ∨
      .bankFields = u ∧ opField w = 2#3 ∧ ¬ (w.extractLsb' 8 6 = 0#6 ∧ modeField w = 0#2) ∨
      .swhlFields = u ∧ opField w = 3#3 ∧ ¬ (aField w = 0#3 ∧ modeField w = 0#2) ∨
      .haltFields = u ∧ opField w = 7#3 ∧ w ≠ 0xC007#16 ∨
      .type3Operation = u ∧ (opField w = 0#3 ∨ opField w = 4#3 ∨ opField w = 5#3 ∨ opField w = 6#3) := by
  fun_cases decodeType3 w <;> simp_all [sel3_eq_iff, Sel3.bits, caFields_eq_zero_iff]

theorem decode_eq_error_iff :
    decode w = .error u ↔
      typeField w = 0#2 ∧ decodeType0 w = .error u ∨
      typeField w = 1#2 ∧ decodeType1 w = .error u ∨
      typeField w = 2#2 ∧ decodeType2 w = .error u ∨
      typeField w = 3#2 ∧ decodeType3 w = .error u := by
  fun_cases decode w <;> simp_all [sel2_eq_iff, Sel2.bits]

end

/-- Settles O5: each part of the decoder rejects what R78 lists of it; that the word of `halt` is the one with bits
[13:3] clear is left to say. -/
theorem undefinedWordsExactly : Obligations.UndefinedWordsExactly := by
  intro w ty c a low mode op
  simp only [decode_eq_error_iff, decodeType0_eq_error_iff_low, decodeType1_eq_error_iff,
    decodeType2_eq_error_iff, decodeType3_eq_error_iff, not_and_or, reduceCtorEq,
    true_and, false_and, and_false, or_false, false_or]
  refine ⟨.rfl, .rfl, .rfl, .rfl, .rfl, .rfl, .rfl, .rfl, .rfl, .rfl, .rfl, .rfl, .rfl, ?_⟩
  refine and_congr_right fun htype => and_congr_right fun hop => not_congr ?_
  simp [eq_haltWord_iff, htype, hop]

end Sys2Proof
end

section
/-! The ALU code a word presents (30_encoding.md R63), and the sequence of R81 for a 16-bit constant. -/

namespace Sys2Proof.Machine

open Sys2Proof

/-- Settles O8: it is what the step of a running CPU does with an undefined word. -/
theorem undefinedWordIsRefused : Obligations.UndefinedWordIsRefused :=
  fun _ _ => step_undefined

/-! ### The code of an instruction's word -/

/-- The ALU code of a word, from its type and its operation. -/
theorem aluCode_eq (w : Word) : aluCode w = (typeField w).extractLsb' 1 1 ++ opField w := by
  have htype : w.extractLsb' 15 1 = (typeField w).extractLsb' 1 1 := by
    ext k hk
    obtain rfl : k = 0 := Nat.lt_one_iff.mp hk
    simp [typeField]
  rw [aluCode, htype]

theorem aluCode_packRegs (ty : BitVec 2) (c a b : BitVec 3) (low : BitVec 5) :
    aluCode (packRegs ty c a b low) = ty.extractLsb' 1 1 ++ low.extractLsb' 0 3 := by
  rw [aluCode_eq, typeField_packRegs, opField_packRegs]

theorem aluCode_packImm (ty : BitVec 2) (c : BitVec 3) (imm : Byte) (op : BitVec 3) :
    aluCode (packImm ty c imm op) = ty.extractLsb' 1 1 ++ op := by
  rw [aluCode_eq, typeField_packImm, opField_packImm]

theorem aluOpOfCode_aluCode_encode {i : Instr} {op : AluOp} (h : aluOpOf i = some op) :
    aluOpOfCode (aluCode (encode i)) = some op := by
  rw [← h]
  cases i with
  | movpc | movib | bz | bnz | bpl | bmi | bra | halt => cases h
  | nop => rfl
  | mov | add | sub | and | or | xor | lsl | asr | ld | ldadd | ldsub | st | stadd | stsub | jump | bank | swhl =>
    rw [encode, aluCode_packRegs]
    rfl
  | movi | addi | subi | andi | ori | xori | lsli | asri | banki =>
    rw [encode, aluCode_packImm]
    rfl

/-- Settles O37: the code is read off the fixed bits of the word, the same for every operand. -/
theorem wordPresentsItsAluCode : Obligations.WordPresentsItsAluCode := by
  refine ⟨fun _ _ => aluOpOfCode_aluCode_encode, fun r off => ?_, rfl, by decide⟩
  simp only [encode, aluCode_packImm]
  decide

/-! ### The operation a word applies -/

/-- The ALU operation of the codes 0000 to 0111, which the words of the register operations and of the immediates
present (R63, R90). `aluOpOfCode_zero_append` ties it to the ALU's table. -/
def lowOp : Sel3 → AluOp
  | .s000 => .b
  | .s001 => .sum
  | .s010 => .diff
  | .s011 => .and
  | .s100 => .or
  | .s101 => .xor
  | .s110 => .lsl
  | .s111 => .asr

theorem aluOpOfCode_zero_append (op : BitVec 3) : aluOpOfCode (0#1 ++ op) = some (lowOp (sel3 op)) := by
  revert op
  decide

/-- The operation coded in a word with bit 15 clear. -/
theorem aluOpOfCode_aluCode {w : Word} (h : (typeField w).extractLsb' 1 1 = 0#1) :
    aluOpOfCode (aluCode w) = some (lowOp (sel3 (opField w))) := by
  rw [aluCode_eq, h, aluOpOfCode_zero_append]

/-- An instruction whose effect is a register result makes no data access, so it completes. -/
theorem exec_of_effectOf_reg {i : Instr} {s : State} {c : Reg} {v : Word}
    (h : effectOf s i = .reg c v) : exec i s = .next (s.setReg c v).advance := by
  refine exec_eq_next_iff.mpr ⟨?_, by rw [h]; rfl⟩
  rw [dataAdmitted, ← effectOf_access, h]
  rfl

/-- A register operation writes its C register with the word's operation of its A and B registers (R109). -/
theorem effectOf_of_decodeRegOp {w : Word} {i : Instr} (s : State) (h : decodeRegOp w = .ok i) :
    effectOf s i = .reg (regOfBits (cField w)) (alu (lowOp (sel3 (opField w)))
      (s.reg (regOfBits (aField w))) (s.reg (regOfBits (bField w)))) := by
  revert h
  fun_cases decodeRegOp w with
  | case1 _ hw =>
    rintro ⟨⟩
    subst hw
    rfl
  | case3 => exact nofun
  | _ =>
    rintro ⟨⟩
    simp only [*]
    rfl

/-- The amount of a shift whose bits [10:6] are zero is its immediate (R66, R67). -/
theorem shiftOperand_shiftField {w : Word} (h : shiftHighField w = 0b00000#5) :
    shiftOperand (shiftField w) = immOperand (immField w) := by
  have himm : ∀ sss : BitVec 3, shiftOperand sss = immOperand (shiftImm sss) := by decide
  rw [himm, (immField_eq_shiftImm_iff w).mpr h]

/-- An immediate instruction writes its register with the word's operation of that register and its literal
(R140). -/
theorem effectOf_of_decodeType1 {w : Word} {i : Instr} (s : State) (h : decodeType1 w = .ok i) :
    effectOf s i = .reg (regOfBits (cField w))
      (alu (lowOp (sel3 (opField w))) (s.reg (regOfBits (cField w))) (immOperand (immField w))) := by
  revert h
  fun_cases decodeType1 w with
  | case8 | case10 => exact nofun
  | case7 _ hop hhigh | case9 _ hop hhigh =>
    rintro ⟨⟩
    simp only [hop, ← shiftOperand_shiftField hhigh]
    rfl
  | _ =>
    rintro ⟨⟩
    simp only [*]
    rfl

theorem decode_eq_decodeRegOp {w : Word} (htype : typeField w = 0b00#2) (hmode : modeField w = 0b00#2) :
    decode w = decodeRegOp w := by
  have hmovib : moveField w ≠ Config.movibLow := by
    simp [moveField_eq_movibLow_iff, hmode]
  simp [decode, decodeType0, htype, hmode, hmovib, sel2]

theorem decode_eq_decodeType1 {w : Word} (htype : typeField w = 0b01#2) : decode w = decodeType1 w := by
  simp [decode, htype, sel2]

/-- Settles O16: both kinds of words have bit 15 clear, and their effect is a register result of the operation that
their code names. -/
theorem operationIsTheWordsAluCode : Obligations.OperationIsTheWordsAluCode := by
  refine ⟨fun w i s hdec htype hmode => ?_, fun w i s hdec htype => ?_⟩
  · have hcode : (typeField w).extractLsb' 1 1 = 0#1 := congrArg (BitVec.extractLsb' 1 1) htype
    rw [decode_eq_decodeRegOp htype hmode] at hdec
    exact ⟨_, _, aluOpOfCode_aluCode hcode,
      exec_of_effectOf_reg (effectOf_of_decodeRegOp s hdec), reg_setReg_same ..⟩
  · have hcode : (typeField w).extractLsb' 1 1 = 0#1 := congrArg (BitVec.extractLsb' 1 1) htype
    rw [decode_eq_decodeType1 htype] at hdec
    exact ⟨_, _, aluOpOfCode_aluCode hcode,
      exec_of_effectOf_reg (effectOf_of_decodeType1 s hdec), reg_setReg_same ..⟩

/-! ### A constant in three steps -/

/-- The bits of a word with its bytes exchanged (R101). -/
theorem getLsbD_swapBytes (y : Word) (k : Nat) :
    (swapBytes y).getLsbD k
      = if k < 8 then y.getLsbD (8 + k) else decide (k - 8 < 8) && y.getLsbD (k - 8) := by
  show (y.extractLsb' 0 8 ++ y.extractLsb' 8 8 : BitVec (8 + 8)).getLsbD k = _
  rw [BitVec.getLsbD_append]
  split <;> simp [*]

/-- A word is its high byte, swapped up, over its low byte. -/
theorem swapBytes_or_immOperand (v : Word) :
    swapBytes (immOperand (v.extractLsb' 8 8)) ||| immOperand (v.extractLsb' 0 8) = v := by
  refine BitVec.eq_of_getLsbD_eq fun k hk => ?_
  rw [BitVec.getLsbD_or, getLsbD_swapBytes]
  by_cases hlow : k < 8
  · simp [immOperand, hlow, hk]
  · have hhigh : k - 8 < 8 := by omega
    have hword : k - 8 < 16 := by omega
    simp [immOperand, hlow, hhigh, hword, Nat.add_sub_cancel' (not_lt.mp hlow)]

/-- Settles O55: each step is a register result in the same register, and the three compose to the constant. -/
theorem constantBuiltInThreeSteps : Obligations.ConstantBuiltInThreeSteps := by
  refine fun n v s => ⟨_, _, _, rfl, rfl, rfl, ?_, fun r hr => ?_⟩
  · simpa [alu] using swapBytes_or_immOperand v
  · simp [hr]

end Sys2Proof.Machine
end

section
/-! The ALU's operations (40_alu_operations.md R94 to R101): the shift amount, what LSL, AND, OR, XOR and SB do with
each bit of their operands, and which codes pass B through. -/

namespace Sys2Proof.Machine

open Sys2Proof

/-! ### The shift amount -/

theorem one_le_shiftBy (n : Nat) : 1 ≤ shiftBy n := by
  rw [shiftBy]
  split <;> omega

theorem shiftBy_le_eight (n : Nat) : shiftBy n ≤ 8 := by
  rw [shiftBy]
  split <;> omega

theorem shiftBy_congr {m n : Nat} (h : m % 8 = n % 8) : shiftBy m = shiftBy n := by
  rw [shiftBy, shiftBy, h]

/-- The ALU's shift amount is the one the statements count by: the field `B[2:0]` is B modulo 8 (R97). -/
theorem shiftAmount_eq_shiftBy (y : Word) : shiftAmount y = shiftBy y.toNat := by
  have hfield : (y.extractLsb' 0 3).toNat = y.toNat % 8 := by
    rw [BitVec.extractLsb'_toNat, Nat.shiftRight_zero]
  rw [shiftAmount, hfield, shiftBy]

theorem alu_lsl (x y : Word) : alu .lsl x y = x <<< shiftBy y.toNat := by
  rw [alu, shiftAmount_eq_shiftBy]

theorem alu_asr (x y : Word) : alu .asr x y = x.sshiftRight (shiftBy y.toNat) := by
  rw [alu, shiftAmount_eq_shiftBy]

/-- Settles O33: both shifts use B through its shift amount only, and that is fixed by B modulo 8. -/
theorem shiftAmountIsLowThreeBits : Obligations.ShiftAmountIsLowThreeBits := by
  refine ⟨fun y => ?_, fun x y z h => ?_⟩
  · rw [shiftAmount_eq_shiftBy]
    exact ⟨rfl, one_le_shiftBy _, shiftBy_le_eight _⟩
  · rw [alu_lsl, alu_lsl, alu_asr, alu_asr, shiftBy_congr h]
    exact ⟨rfl, rfl⟩

/-! ### Bit by bit -/

/-- Settles O34: the library's bits of a left shift, at the ALU's shift amount. -/
theorem lslBitByBit : Obligations.LslBitByBit := by
  intro x y k hk
  rw [alu_lsl, BitVec.getLsbD_shiftLeft]
  by_cases hn : shiftBy y.toNat ≤ k
  · simp [hk, hn]
  · simp [hn, not_le.mp hn]

/-- XOR with 0xFFFF is the NOT of R96. -/
theorem alu_xor_allOnes (x : Word) : alu .xor x 0xFFFF#16 = ~~~x :=
  BitVec.xor_allOnes

/-- Settles O35: the operations are the library's bitwise ones. -/
theorem bitwiseOperations : Obligations.BitwiseOperations := by
  refine ⟨fun x y k _ => ⟨?_, ?_, ?_⟩, fun x k hk => ?_⟩
  · rw [alu, BitVec.getLsbD_and, Bool.and_eq_true]
  · rw [alu, BitVec.getLsbD_or, Bool.or_eq_true]
  · rw [alu, BitVec.getLsbD_xor, bne_iff_ne]
  · rw [alu_xor_allOnes, BitVec.getLsbD_not, decide_eq_true hk, Bool.true_and]

/-! ### B and SB -/

/-- A word with its bytes exchanged, as a number (R101). -/
theorem toNat_swapBytes (y : Word) : (swapBytes y).toNat = y.toNat % 256 * 256 + y.toNat / 256 := by
  have hlow : (y.extractLsb' 0 8).toNat = y.toNat % 256 := by
    rw [BitVec.extractLsb'_toNat, Nat.shiftRight_zero]
  have hhigh : (y.extractLsb' 8 8).toNat = y.toNat / 256 := by
    rw [BitVec.extractLsb'_toNat, Nat.shiftRight_eq_div_pow]
    omega
  rw [swapBytes, BitVec.toNat_append, ← Nat.shiftLeft_add_eq_or_of_lt (BitVec.isLt _), Nat.shiftLeft_eq,
    hlow, hhigh]

theorem swapBytes_swapBytes (y : Word) : swapBytes (swapBytes y) = y := by
  refine BitVec.eq_of_toNat_eq ?_
  rw [toNat_swapBytes, toNat_swapBytes]
  omega

/-- Settles O36: the codes are read off the ALU's table, and SB is the exchange of B's bytes. -/
theorem bAndSbOperations : Obligations.BAndSbOperations := by
  refine ⟨?codes, ?passesB, fun _ => toNat_swapBytes, fun _ => swapBytes_swapBytes⟩
  case codes => exact ⟨rfl, rfl, rfl, rfl, rfl⟩
  case passesB => exact fun _ _ => ⟨rfl, rfl, rfl, rfl⟩

end Sys2Proof.Machine
end

section
/-! The encoder and the decoder (30_encoding.md R72 to R76): a packing is given by its fields, the decoder answers
exactly the well-formed instruction whose word it reads, and so which words a row of the opcode table holds. -/

namespace Sys2Proof

open Sys2Proof.Machine

/-! ### A word is given by its fields -/

theorem packRegs_eq_iff {w : Word} {ty : BitVec 2} {c a b : BitVec 3} {low : BitVec 5} :
    packRegs ty c a b low = w ↔
      typeField w = ty ∧ cField w = c ∧ aField w = a ∧ bField w = b ∧
        modeField w = low.extractLsb' 3 2 ∧ opField w = low.extractLsb' 0 3 := by
  constructor
  · rintro rfl
    simp
  · rintro ⟨rfl, rfl, rfl, rfl, hlow⟩
    rw [← (low_eq_iff w low).mpr hlow, packRegs_fields]

theorem packImm_eq_iff {w : Word} {ty : BitVec 2} {c : BitVec 3} {imm : Byte} {op : BitVec 3} :
    packImm ty c imm op = w ↔
      typeField w = ty ∧ cField w = c ∧ immField w = imm ∧ opField w = op := by
  constructor
  · rintro rfl
    simp
  · rintro ⟨rfl, rfl, rfl, rfl⟩
    exact packImm_fields w

/-- A word of Type 0 is the packing of its C field and of its bits [10:0]. -/
theorem packMove_fields {w : Word} (htype : typeField w = 0b00#2) : packMove (cField w) (moveField w) = w := by
  have hfoot : w.extractLsb' 14 2 ++ w.extractLsb' 11 3 = w.extractLsb' 11 5 :=
    BitVec.extractLsb'_append_extractLsb'_eq_extractLsb' rfl
  have hword : w.extractLsb' 11 5 ++ w.extractLsb' 0 11 = w.extractLsb' 0 16 :=
    BitVec.extractLsb'_append_extractLsb'_eq_extractLsb' rfl
  rw [packMove, ← htype, typeField, cField, moveField, hfoot, hword, BitVec.extractLsb'_eq_self]

theorem packMove_eq_iff {w : Word} {c : BitVec 3} {low : BitVec 11} :
    packMove c low = w ↔ typeField w = 0b00#2 ∧ cField w = c ∧ moveField w = low := by
  constructor
  · rintro rfl
    simp
  · rintro ⟨htype, rfl, rfl⟩
    exact packMove_fields htype

/-- Of the words of `mov` only 0x0000 is read as another instruction, `nop` (R76). -/
theorem wellFormed_mov_iff {c b : Reg} : (Instr.mov c b).wellFormed = true ↔ encode (.mov c b) ≠ 0x0000#16 := by
  have hfields : encode (.mov c b) = 0x0000#16 ↔ c = 0 ∧ b = 0 := by
    rw [encode, packRegs_eq_iff, ← bitsOfReg_eq_zero c, ← bitsOfReg_eq_zero b]
    exact ⟨fun ⟨_, hc, _, hb, _⟩ => ⟨hc.symm, hb.symm⟩,
      fun ⟨hc, hb⟩ => ⟨rfl, hc.symm, rfl, hb.symm, rfl, rfl⟩⟩
  simp [hfields, Instr.wellFormed, -not_and, not_and_or]

/-! ### The decoder answers what the encoder packs -/

section

variable {w : Word} {i : Instr}

theorem encode_of_decodeRegOp (htype : typeField w = 0b00#2) (hmode : modeField w = 0b00#2)
    (h : decodeRegOp w = .ok i) : encode i = w ∧ i.wellFormed = true := by
  revert h
  fun_cases decodeRegOp w with
  | case2 _ _ hop hzero ha =>
    rintro ⟨⟩
    have henc : encode (.mov (regOfBits (cField w)) (regOfBits (bField w))) = w :=
      packRegs_eq_iff.mpr ⟨htype, rfl, ha, rfl, hmode, (sel3_eq_iff _ _).mp hop⟩
    exact ⟨henc, wellFormed_mov_iff.mpr (henc ▸ hzero)⟩
  | _ =>
    rintro ⟨⟩ <;>
      simp_all +zetaDelta [encode, packRegs_eq_iff, sel3_eq_iff, Sel3.bits, Instr.wellFormed]

theorem encode_of_decodeRead (htype : typeField w = 0b00#2) (hmode : modeField w = 0b01#2)
    (h : decodeRead w = .ok i) : encode i = w ∧ i.wellFormed = true := by
  revert h
  fun_cases decodeRead w <;> rintro ⟨⟩ <;>
    simp_all +zetaDelta [encode, packRegs_eq_iff, sel3_eq_iff, Sel3.bits, Instr.wellFormed]

theorem encode_of_decodeMove (htype : typeField w = 0b00#2)
    (h : decodeMove w = .ok i) : encode i = w ∧ i.wellFormed = true := by
  revert h
  fun_cases decodeMove w with
  | case1 _ hlow =>
    rintro ⟨⟩
    exact ⟨packMove_eq_iff.mpr ⟨htype, rfl, hlow⟩, rfl⟩
  | _ => exact nofun

theorem encode_of_decodeWrite (htype : typeField w = 0b00#2) (hmode : modeField w = 0b11#2)
    (h : decodeWrite w = .ok i) : encode i = w ∧ i.wellFormed = true := by
  revert h
  fun_cases decodeWrite w <;> rintro ⟨⟩ <;>
    simp_all +zetaDelta [encode, packRegs_eq_iff, sel3_eq_iff, Sel3.bits, Instr.wellFormed]

theorem encode_of_decodeType0 (htype : typeField w = 0b00#2)
    (h : decodeType0 w = .ok i) : encode i = w ∧ i.wellFormed = true := by
  revert h
  fun_cases decodeType0 w with
  | case1 hmovib =>
    rintro ⟨⟩
    exact ⟨packMove_eq_iff.mpr ⟨htype, rfl, hmovib⟩, rfl⟩
  | case2 _ hmode => exact encode_of_decodeRegOp htype ((sel2_eq_iff _ _).mp hmode)
  | case3 _ hmode => exact encode_of_decodeRead htype ((sel2_eq_iff _ _).mp hmode)
  | case4 => exact encode_of_decodeMove htype
  | case5 _ hmode => exact encode_of_decodeWrite htype ((sel2_eq_iff _ _).mp hmode)

theorem encode_of_decodeType1 (htype : typeField w = 0b01#2)
    (h : decodeType1 w = .ok i) : encode i = w ∧ i.wellFormed = true := by
  revert h
  fun_cases decodeType1 w <;> rintro ⟨⟩ <;>
    simp_all +zetaDelta [encode, packImm_eq_iff, immField_eq_shiftImm_iff, sel3_eq_iff, Sel3.bits,
      Instr.wellFormed]

theorem encode_of_decodeType2 (htype : typeField w = 0b10#2)
    (h : decodeType2 w = .ok i) : encode i = w ∧ i.wellFormed = true := by
  revert h
  fun_cases decodeType2 w <;> rintro ⟨⟩ <;>
    simp_all +zetaDelta [encode, packRegs_eq_iff, packImm_eq_iff, sel3_eq_iff, Sel3.bits, Instr.wellFormed]

theorem encode_of_decodeType3 (htype : typeField w = 0b11#2)
    (h : decodeType3 w = .ok i) : encode i = w ∧ i.wellFormed = true := by
  revert h
  fun_cases decodeType3 w <;> rintro ⟨⟩ <;>
    simp_all +zetaDelta [encode, packRegs_eq_iff, packImm_eq_iff, sel3_eq_iff, Sel3.bits, Instr.wellFormed]

theorem encode_of_decode (h : decode w = .ok i) : encode i = w ∧ i.wellFormed = true := by
  revert h
  fun_cases decode w with
  | case1 htype => exact encode_of_decodeType0 ((sel2_eq_iff _ _).mp htype)
  | case2 htype => exact encode_of_decodeType1 ((sel2_eq_iff _ _).mp htype)
  | case3 htype => exact encode_of_decodeType2 ((sel2_eq_iff _ _).mp htype)
  | case4 htype => exact encode_of_decodeType3 ((sel2_eq_iff _ _).mp htype)

theorem decode_encode (h : i.wellFormed = true) : decode (encode i) = .ok i := by
  cases i with
  | nop | halt => rfl
  | mov =>
    have hzero := wellFormed_mov_iff.mp h
    simp_all [encode, decode, decodeType0, decodeRegOp, moveField_eq_movibLow_iff, sel2, sel3]
  | movib => simp [encode, decode, decodeType0, sel2]
  | movpc c =>
    obtain ⟨-, hmode, hop⟩ := (moveField_eq_movpcLow_iff _).mp (moveField_packMove (bitsOfReg c) movpcLow)
    have hmovib : movpcLow ≠ Config.movibLow := by decide
    simp [encode, decode, decodeType0, decodeMove, sel2, sel3, hmode, hop, hmovib]
  | add | sub | and | or | xor | lsl | asr =>
    simp [encode, decode, decodeType0, decodeRegOp, moveField_eq_movibLow_iff, sel2, sel3]
  | ld | ldadd | ldsub =>
    simp [encode, decode, decodeType0, decodeRead, moveField_eq_movibLow_iff, sel2, sel3]
  | st | stadd | stsub =>
    simp [encode, decode, decodeType0, decodeWrite, moveField_eq_movibLow_iff, sel2, sel3]
  | movi | addi | subi | andi | ori | xori | lsli | asri => simp [encode, decode, decodeType1, sel2, sel3]
  | jump | bz | bnz | bpl | bmi | bra => simp [encode, decode, decodeType2, sel2, sel3]
  | banki | bank | swhl => simp [encode, decode, decodeType3, sel2, sel3]

theorem decode_eq_ok_iff : decode w = .ok i ↔ encode i = w ∧ i.wellFormed = true := by
  refine ⟨encode_of_decode, ?_⟩
  rintro ⟨rfl, h⟩
  exact decode_encode h

end

/-! ### The words of a row -/

/-- The words that fit a row are those the encoder gives, where the fields of the instruction are the bits outside
the mask. -/
theorem fits_iff_encode_eq {w mask pattern : Word} {i : Instr} (hrow : encode i &&& mask = pattern)
    (hfields : encode i &&& ~~~mask = w &&& ~~~mask) : w &&& mask = pattern ↔ encode i = w := by
  have hsplit (x : Word) : x &&& mask ||| x &&& ~~~mask = x := by
    rw [← BitVec.and_or_distrib_left, BitVec.or_not_self, BitVec.and_allOnes]
  constructor
  · intro h
    rw [← hsplit (encode i), hrow, hfields, ← h, hsplit]
  · rintro rfl
    exact hrow

/-- The words of a row whose instruction has its fields outside the mask and is well formed. -/
theorem rowIs_of_fields {mask pattern : Word} {instr : Word → Instr}
    (hrow : ∀ w, encode (instr w) &&& mask = pattern)
    (hfields : ∀ w, encode (instr w) &&& ~~~mask = w &&& ~~~mask)
    (hwf : ∀ w, (instr w).wellFormed = true) : RowIs mask pattern instr := fun w => by
  rw [fits_iff_encode_eq (hrow w) (hfields w), decode_eq_ok_iff, and_iff_left (hwf w)]

theorem packRegs_fields_outside (w : Word) (ty : BitVec 2) (low : BitVec 5) :
    packRegs ty (cField w) (aField w) (bField w) low &&& ~~~0xC01F#16 = w &&& ~~~0xC01F#16 := by
  refine BitVec.eq_of_getLsbD_eq fun k hk => ?_
  interval_cases k <;> simp [getElem_packRegs, cField, aField, bField]

theorem packRegs_cbFields_outside (w : Word) (ty : BitVec 2) (a : BitVec 3) (low : BitVec 5) :
    packRegs ty (cField w) a (bField w) low &&& ~~~0xC71F#16 = w &&& ~~~0xC71F#16 := by
  refine BitVec.eq_of_getLsbD_eq fun k hk => ?_
  interval_cases k <;> simp [getElem_packRegs, cField, bField]

theorem packMove_cField_outside (w : Word) (low : BitVec 11) :
    packMove (cField w) low &&& ~~~0xC7FF#16 = w &&& ~~~0xC7FF#16 := by
  refine BitVec.eq_of_getLsbD_eq fun k hk => ?_
  interval_cases k <;> simp [getElem_packMove, cField]

end Sys2Proof
end

section
/-! The Type 0 instructions (41_type0_register_memory.md R109 to R126): their words, what they write, and what they
leave unchanged. -/

namespace Sys2Proof.Machine

open Sys2Proof

/-! ### The rows of Type 0 -/

/-- A row with three register fields, outside the mask 0xC01F. -/
theorem rowIs_threeRegs {pattern : Word} {instr : Reg → Reg → Reg → Instr} {low : BitVec 5}
    (henc : ∀ c a b, encode (instr c a b) = packRegs 0b00#2 (bitsOfReg c) (bitsOfReg a) (bitsOfReg b) low)
    (hrow : ∀ c a b, encode (instr c a b) &&& 0xC01F#16 = pattern)
    (hwf : ∀ c a b, (instr c a b).wellFormed = true) :
    RowIs 0xC01F#16 pattern (fun w => instr (regAt w 11) (regAt w 8) (regAt w 5)) := by
  refine rowIs_of_fields (fun _ => hrow ..) (fun w => ?_) fun _ => hwf ..
  rw [henc]
  exact packRegs_fields_outside w 0b00#2 low

/-- A row with the register fields C and B, outside the mask 0xC71F. -/
theorem rowIs_twoRegs {pattern : Word} {instr : Reg → Reg → Instr} {low : BitVec 5}
    (henc : ∀ c b, encode (instr c b) = packRegs 0b00#2 (bitsOfReg c) 0b000#3 (bitsOfReg b) low)
    (hrow : ∀ c b, encode (instr c b) &&& 0xC71F#16 = pattern)
    (hwf : ∀ c b, (instr c b).wellFormed = true) :
    RowIs 0xC71F#16 pattern (fun w => instr (regAt w 11) (regAt w 5)) := by
  refine rowIs_of_fields (fun _ => hrow ..) (fun w => ?_) fun _ => hwf ..
  rw [henc]
  exact packRegs_cbFields_outside w 0b00#2 0b000#3 low

/-- The words of `mov`, but for 0x0000, which is read as `nop` (R110, R76). -/
theorem movWord_iff (w : Word) : (w &&& 0xC71F#16 = 0x0000#16 ∧ w ≠ 0x0000#16) ↔
    decode w = .ok (.mov (regAt w 11) (regAt w 5)) := by
  have hfits : w &&& 0xC71F#16 = 0x0000#16 ↔ encode (.mov (regAt w 11) (regAt w 5)) = w :=
    fits_iff_encode_eq (Laws.RowFixedBits.mov ..) (packRegs_cbFields_outside w 0b00#2 0b000#3 0b00000#5)
  rw [decode_eq_ok_iff, wellFormed_mov_iff, hfits]
  exact and_congr_right fun henc => by rw [henc]

theorem nopWord_iff (w : Word) : w = 0x0000#16 ↔ decode w = .ok .nop := by
  rw [decode_eq_ok_iff, eq_comm]
  exact (and_iff_left rfl).symm

/-- The words of `mov` with a non-zero A field are undefined (R78). -/
theorem movWord_undefined {w : Word} (h : w &&& 0xC01F#16 = 0x0000#16) (ha : w.extractLsb' 8 3 ≠ 0#3) :
    decode w = .error .fieldASet := by
  have hfixed {lo len : Nat} (hones : (0xC01F#16).extractLsb' lo len = BitVec.allOnes len) :
      w.extractLsb' lo len = 0#len := by
    rw [← BitVec.and_allOnes (x := w.extractLsb' lo len), ← hones, ← BitVec.extractLsb'_and, h,
      BitVec.extractLsb'_zero]
  obtain ⟨hfieldA, -⟩ := undefinedWordsExactly w
  exact hfieldA.mpr ⟨hfixed rfl, .inl (hfixed rfl), ha⟩

/-! ### The ALU's results as numbers and bits -/

theorem toNat_alu_sum (x y : Word) : (alu .sum x y).toNat = (x.toNat + y.toNat) % 65536 :=
  BitVec.toNat_add x y

theorem toNat_alu_diff (x y : Word) :
    ((alu .diff x y).toNat : Int) = (x.toNat - y.toNat : Int) % 65536 := by
  have hy : y.toNat < 65536 := y.isLt
  rw [alu, BitVec.toNat_sub]
  omega

theorem toNat_alu_lsl (x y : Word) :
    (alu .lsl x y).toNat = (x.toNat * 2 ^ shiftBy y.toNat) % 65536 := by
  rw [alu_lsl, BitVec.toNat_shiftLeft, Nat.shiftLeft_eq]

/-- ASR fills with copies of bit 15 (R99, G2). -/
theorem getLsbD_alu_asr (x y : Word) {k : Nat} (hk : k < 16) :
    (alu .asr x y).getLsbD k = x.getLsbD (min (k + shiftBy y.toNat) 15) := by
  rw [alu_asr, BitVec.getLsbD_sshiftRight, BitVec.msb_eq_getLsbD_last, Nat.add_comm]
  rw [decide_eq_false (not_le.mpr hk), Bool.not_false, Bool.true_and]
  split
  · rw [min_eq_left (by omega)]
  · rw [min_eq_right (by omega)]

/-- ASR divides the signed value by a power of two, rounding toward minus infinity. -/
theorem toInt_alu_asr (x y : Word) : (alu .asr x y).toInt = x.toInt / 2 ^ shiftBy y.toNat := by
  rw [alu_asr, BitVec.toInt_sshiftRight, Int.shiftRight_eq_div_pow]
  norm_cast

/-! ### Register results -/

/-- An instruction whose effect is a register result completes with that result, and its frame is the register's. -/
theorem exec_writesOnly {i : Instr} {s : State} {c : Reg} {v : Word} (h : effectOf s i = .reg c v) :
    ∃ t, exec i s = .next t ∧ t.reg c = v ∧ WritesOnly c s t :=
  ⟨_, exec_of_effectOf_reg h, reg_setReg_same .., writesOnly_setReg_advance ..⟩

/-- Settles O11: the decoder looks for 0x0000 first, and writing back R0 changes nothing. -/
theorem movAndNop : Obligations.MovAndNop :=
  ⟨movWord_iff, nopWord_iff, fun _ h ha => ⟨_, movWord_undefined h ha⟩, fun _ _ _ => exec_writesOnly rfl,
    fun s => ⟨congrArg (fun u : State => (.next u.advance : Answer)) (setReg_reg s 0), rfl⟩⟩

/-- Settles O12: the results are the ALU's sum and difference. -/
theorem addAndSub : Obligations.AddAndSub := by
  refine ⟨rowIs_threeRegs (fun _ _ _ => rfl) Laws.RowFixedBits.add fun _ _ _ => rfl,
    rowIs_threeRegs (fun _ _ _ => rfl) Laws.RowFixedBits.sub fun _ _ _ => rfl,
    fun c a b s => ?add, fun c a b s => ?sub⟩
  case add =>
    obtain ⟨t, hexec, hreg, hframe⟩ := exec_writesOnly (i := .add c a b) (s := s) rfl
    exact ⟨t, hexec, hreg ▸ toNat_alu_sum .., hframe⟩
  case sub =>
    obtain ⟨t, hexec, hreg, hframe⟩ := exec_writesOnly (i := .sub c a b) (s := s) rfl
    exact ⟨t, hexec, hreg ▸ toNat_alu_diff .., hframe⟩

/-- Settles O13: the results are the ALU's, whose bits are the library's. -/
theorem andOrXor : Obligations.AndOrXor := by
  refine ⟨rowIs_threeRegs (fun _ _ _ => rfl) Laws.RowFixedBits.and fun _ _ _ => rfl,
    rowIs_threeRegs (fun _ _ _ => rfl) Laws.RowFixedBits.or fun _ _ _ => rfl,
    rowIs_threeRegs (fun _ _ _ => rfl) Laws.RowFixedBits.xor fun _ _ _ => rfl,
    fun c a b s => ?and, fun c a b s => ?or, fun c a b s => ?xor⟩
  case and =>
    obtain ⟨t, hexec, hreg, hframe⟩ := exec_writesOnly (i := .and c a b) (s := s) rfl
    exact ⟨t, hexec, hframe, fun _ _ => hreg ▸ BitVec.getLsbD_and⟩
  case or =>
    obtain ⟨t, hexec, hreg, hframe⟩ := exec_writesOnly (i := .or c a b) (s := s) rfl
    exact ⟨t, hexec, hframe, fun _ _ => hreg ▸ BitVec.getLsbD_or⟩
  case xor =>
    obtain ⟨t, hexec, hreg, hframe⟩ := exec_writesOnly (i := .xor c a b) (s := s) rfl
    exact ⟨t, hexec, hframe, fun _ _ => hreg ▸ BitVec.getLsbD_xor⟩

/-- Settles O14: the result is the ALU's left shift. -/
theorem lslByRegister : Obligations.LslByRegister := by
  refine ⟨rowIs_threeRegs (fun _ _ _ => rfl) Laws.RowFixedBits.lsl fun _ _ _ => rfl, fun c a b s => ?_⟩
  obtain ⟨t, hexec, hreg, hframe⟩ := exec_writesOnly (i := .lsl c a b) (s := s) rfl
  exact ⟨t, hexec, hreg ▸ toNat_alu_lsl .., hframe⟩

/-- Settles O15: the result is the ALU's right shift, bit by bit and as a signed number. -/
theorem asrByRegister : Obligations.AsrByRegister := by
  refine ⟨rowIs_threeRegs (fun _ _ _ => rfl) Laws.RowFixedBits.asr fun _ _ _ => rfl, fun c a b s => ?_⟩
  obtain ⟨t, hexec, hreg, hframe⟩ := exec_writesOnly (i := .asr c a b) (s := s) rfl
  exact ⟨t, hexec, hframe, fun k hk => hreg ▸ getLsbD_alu_asr _ _ hk, hreg ▸ toInt_alu_asr ..⟩

/-! ### What an instruction does not read -/

/-- Which data accesses MemMap admits is decided by the registers, `DB` and the parameters. -/
theorem dataAdmitted_congr {s u : State} (i : Instr) (hregs : u.regs = s.regs) (hdb : u.db = s.db)
    (hplatform : u.platform = s.platform) : dataAdmitted u i = dataAdmitted s i := by
  cases u
  cases s
  subst hregs hdb hplatform
  cases i <;> rfl

/-- Settles O17: the effect of `movpc` is computed from `PC`; every other instruction computes from `PC` at most the
next `PC`. -/
theorem movpcYieldsOwnAddress : Obligations.MovpcYieldsOwnAddress := by
  refine ⟨rowIs_of_fields (fun _ => Laws.RowFixedBits.movpc ..) (packMove_cField_outside · movpcLow) fun _ => rfl,
    fun _ _ => exec_writesOnly rfl, fun i s p hi t h => ?_⟩
  obtain ⟨hadm, rfl⟩ := exec_eq_next_iff.mp h
  refine ⟨_, exec_eq_next_iff.mpr ⟨(dataAdmitted_congr i rfl rfl rfl).trans hadm, rfl⟩, ?_⟩
  cases i with
  | movpc c => exact absurd rfl (hi c)
  | _ => exact ⟨rfl, rfl, rfl, rfl, rfl⟩

/-- The low byte of what `movib` writes is `IB`, whatever is drawn (R119). -/
theorem low_byte_movib (c : Reg) (s : State) :
    (((effectOf s (.movib c)).apply s).reg c).extractLsb' 0 8 = s.ib :=
  (congrArg (BitVec.extractLsb' 0 8) (reg_setReg_same s.takeDraw c _)).trans (low_byte_append ..)

theorem reg_movib_ne {c q : Reg} (s : State) (h : q ≠ c) :
    ((effectOf s (.movib c)).apply s).reg q = s.reg q :=
  reg_setReg_ne s.takeDraw _ h

/-- Settles O18: the effect of `movib` is computed from `IB`; every other instruction computes nothing from it. -/
theorem movibYieldsBank : Obligations.MovibYieldsBank := by
  refine ⟨rowIs_of_fields (fun _ => Laws.RowFixedBits.movib ..) (packMove_cField_outside · Config.movibLow)
      fun _ => rfl,
    fun c s => ⟨_, rfl, low_byte_movib c s, fun r hr => reg_movib_ne s hr, rfl, rfl, rfl, rfl, fun _ => rfl, rfl, rfl⟩,
    fun i s bank hi t h => ?_⟩
  obtain ⟨hadm, rfl⟩ := exec_eq_next_iff.mp h
  refine ⟨_, exec_eq_next_iff.mpr ⟨(dataAdmitted_congr i rfl rfl rfl).trans hadm, rfl⟩, ?_⟩
  cases i with
  | movib c => exact absurd rfl (hi c)
  | _ => exact ⟨rfl, rfl, rfl, rfl, rfl⟩

/-- Settles O52: only the effect of `movib` is computed from the draw, and `IB` fills its low byte. -/
theorem drawShowsOnlyInMovibHighByte : Obligations.DrawShowsOnlyInMovibHighByte := by
  intro i s t n h
  obtain ⟨hadm, rfl⟩ := exec_eq_next_iff.mp h
  refine ⟨_, exec_eq_next_iff.mpr ⟨(dataAdmitted_congr i rfl rfl rfl).trans hadm, rfl⟩, ?_⟩
  cases i with
  | movib c =>
    have hother (q : Reg) (hq : q ≠ c) :=
      (reg_movib_ne { s with draws := n } hq).trans (reg_movib_ne s hq).symm
    refine ⟨fun q hq => hother q (hq c rfl), fun q => ?_, rfl, rfl, rfl, rfl, rfl⟩
    by_cases hq : q = c
    · rw [hq]
      exact (low_byte_movib c { s with draws := n }).trans (low_byte_movib c s).symm
    · rw [hother q hq]
  | _ => exact ⟨fun _ _ => rfl, fun _ => rfl, rfl, rfl, rfl, rfl, rfl⟩

/-! ### Loads -/

theorem dataAddr_eq_ofNat (s : State) (ea : Word) :
    s.dataAddr ea = BitVec.ofNat 24 (s.db.toNat * 65536 + ea.toNat) := by
  rw [← toNat_dataAddr, BitVec.ofNat_toNat, BitVec.setWidth_eq]

theorem dataAddr_eq_ofInt (s : State) (ea : Word) :
    s.dataAddr ea = BitVec.ofInt 24 (s.db.toNat * 65536 + ea.toNat) := by
  rw [dataAddr_eq_ofNat, ← BitVec.ofInt_natCast]
  push_cast
  rfl

/-- A load that MemMap admits completes with the word at its address, and its frame is the register's. -/
theorem finishLoad_writesOnly {d : Reg} {ea : Word} {s : State}
    (h : admits s.platform .load (s.dataAddr ea) = true) :
    ∃ t, finishLoad d ea s = .next t ∧ WritesOnly d s t ∧ t.reg d = s.mem.read (s.dataAddr ea) :=
  ⟨_, finishLoad_eq_next_iff.mpr ⟨h, rfl⟩, writesOnly_setReg_advance .., reg_setReg_same ..⟩

/-- Settles O19: the load is `finishLoad` at the address `DB : R[b]` of the old state. -/
theorem loadIndirect : Obligations.LoadIndirect := by
  refine ⟨rowIs_twoRegs (fun _ _ => rfl) Laws.RowFixedBits.ld fun _ _ => rfl, fun d b s h => ?_⟩
  obtain ⟨t, hexec, hframe, hread⟩ := finishLoad_writesOnly (d := d) h
  exact ⟨t, hexec, hframe, hread.trans (congrArg s.mem.read (dataAddr_eq_ofNat ..))⟩

/-- Settles O20: the loads are `finishLoad` at the ALU's sum and difference of the old registers. -/
theorem loadIndexed : Obligations.LoadIndexed := by
  refine ⟨rowIs_threeRegs (fun _ _ _ => rfl) Laws.RowFixedBits.ldadd fun _ _ _ => rfl,
    rowIs_threeRegs (fun _ _ _ => rfl) Laws.RowFixedBits.ldsub fun _ _ _ => rfl,
    fun d a b s h => ?sum, fun d a b s h => ?diff⟩
  case sum =>
    obtain ⟨t, hexec, hframe, hread⟩ := finishLoad_writesOnly (d := d) h
    exact ⟨t, hexec, hframe, by rw [hread, dataAddr_eq_ofNat, eaSum, toNat_alu_sum]⟩
  case diff =>
    obtain ⟨t, hexec, hframe, hread⟩ := finishLoad_writesOnly (d := d) h
    exact ⟨t, hexec, hframe, by rw [hread, dataAddr_eq_ofInt, eaDiff, toNat_alu_diff]⟩

/-! ### Stores -/

/-- A store that MemMap admits completes with the register at its address, and changes no other word. -/
theorem finishStore_storesOnly {src : Reg} {ea : Word} {s : State}
    (h : admits s.platform .store (s.dataAddr ea) = true) :
    ∃ t, finishStore src ea s = .next t ∧ t.mem.read (s.dataAddr ea) = s.reg src ∧
      StoresOnly (s.dataAddr ea) s t :=
  ⟨_, finishStore_eq_next_iff.mpr ⟨h, rfl⟩, read_write_same .., storesOnly_write ..⟩

/-- Settles O21: the store is `finishStore` at the address `DB : R[b]`. -/
theorem storeIndirect : Obligations.StoreIndirect := by
  refine ⟨rowIs_twoRegs (fun _ _ => rfl) Laws.RowFixedBits.st fun _ _ => rfl, fun src b s h => ?_⟩
  obtain ⟨t, hexec, hread, hframe⟩ := finishStore_storesOnly (src := src) h
  exact ⟨t, hexec, toNat_dataAddr .., hread, hframe⟩

/-- Settles O22: the stores are `finishStore` at the ALU's sum and difference. -/
theorem storeIndexed : Obligations.StoreIndexed := by
  refine ⟨rowIs_threeRegs (fun _ _ _ => rfl) Laws.RowFixedBits.stadd fun _ _ _ => rfl,
    rowIs_threeRegs (fun _ _ _ => rfl) Laws.RowFixedBits.stsub fun _ _ _ => rfl,
    fun src a b s h => ?sum, fun src a b s h => ?diff⟩
  case sum =>
    obtain ⟨t, hexec, hread, hframe⟩ := finishStore_storesOnly (src := src) h
    exact ⟨t, hexec, by rw [toNat_dataAddr, eaSum, toNat_alu_sum], hread, hframe⟩
  case diff =>
    obtain ⟨t, hexec, hread, hframe⟩ := finishStore_storesOnly (src := src) h
    refine ⟨t, hexec, ?_, hread, hframe⟩
    rw [toNat_dataAddr, eaDiff]
    push_cast
    rw [toNat_alu_diff]

end Sys2Proof.Machine
end

section
/-! The Type 1 instructions (42_type1_immediate.md R140 to R148): their words, and what their literal does to the
register they write; then the spec's example words. -/

namespace Sys2Proof.Machine

open Sys2Proof

/-! ### Rows with an immediate -/

theorem packImm_regImmFields_outside (w : Word) (ty : BitVec 2) (op : BitVec 3) :
    packImm ty (cField w) (immField w) op &&& ~~~0xC007#16 = w &&& ~~~0xC007#16 := by
  refine BitVec.eq_of_getLsbD_eq fun k hk => ?_
  interval_cases k <;> simp [getElem_packImm, cField, immField]

theorem packImm_regShiftFields_outside (w : Word) (ty : BitVec 2) (op : BitVec 3) :
    packImm ty (cField w) (shiftImm (shiftField w)) op &&& ~~~0xC7C7#16 = w &&& ~~~0xC7C7#16 := by
  refine BitVec.eq_of_getLsbD_eq fun k hk => ?_
  interval_cases k <;> simp [getElem_packImm, cField, shiftImm, shiftField]

/-- A row with a register field and bits [10:3], outside the mask 0xC007. -/
theorem rowIs_regImm {pattern : Word} {instr : Reg → Byte → Instr} {ty : BitVec 2} {op : BitVec 3}
    (henc : ∀ n imm, encode (instr n imm) = packImm ty (bitsOfReg n) imm op)
    (hrow : ∀ n imm, encode (instr n imm) &&& 0xC007#16 = pattern)
    (hwf : ∀ n imm, (instr n imm).wellFormed = true) :
    RowIs 0xC007#16 pattern (fun w => instr (regAt w 11) (w.extractLsb' 3 8)) := by
  refine rowIs_of_fields (fun _ => hrow ..) (fun w => ?_) fun _ => hwf ..
  rw [henc]
  exact packImm_regImmFields_outside w ty op

/-- A row with a register field and a shift amount, outside the mask 0xC7C7. -/
theorem rowIs_regShift {pattern : Word} {instr : Reg → BitVec 3 → Instr} {ty : BitVec 2} {op : BitVec 3}
    (henc : ∀ n sss, encode (instr n sss) = packImm ty (bitsOfReg n) (shiftImm sss) op)
    (hrow : ∀ n sss, encode (instr n sss) &&& 0xC7C7#16 = pattern)
    (hwf : ∀ n sss, (instr n sss).wellFormed = true) :
    RowIs 0xC7C7#16 pattern (fun w => instr (regAt w 11) (w.extractLsb' 3 3)) := by
  refine rowIs_of_fields (fun _ => hrow ..) (fun w => ?_) fun _ => hwf ..
  rw [henc]
  exact packImm_regShiftFields_outside w ty op

/-- A field inside a row's mask holds the pattern's bits. -/
theorem extractLsb'_eq_of_and_mask {w mask pattern : Word} {lo len : Nat} (h : w &&& mask = pattern)
    (hones : mask.extractLsb' lo len = BitVec.allOnes len) :
    w.extractLsb' lo len = pattern.extractLsb' lo len := by
  rw [← h, BitVec.extractLsb'_and, hones, BitVec.and_allOnes]

/-- The words of `lsli` with any of bits [10:6] set are undefined (R78, R147). -/
theorem lsliWord_undefined {w : Word} (h : w &&& 0xC007#16 = 0x4006#16) (hhigh : w.extractLsb' 6 5 ≠ 0#5) :
    decode w = .error .shiftAmountHigh := by
  obtain ⟨-, -, -, -, -, hshift, -⟩ := undefinedWordsExactly w
  exact hshift.mpr ⟨extractLsb'_eq_of_and_mask h rfl, .inl (extractLsb'_eq_of_and_mask h rfl), hhigh⟩

/-! ### The operands -/

theorem toNat_immOperand (imm : Byte) : (immOperand imm).toNat = imm.toNat :=
  BitVec.toNat_setWidth_of_le (by decide)

theorem toNat_shiftOperand (sss : BitVec 3) : (shiftOperand sss).toNat = sss.toNat :=
  BitVec.toNat_setWidth_of_le (by decide)

/-- The high byte of a literal is zero: "promoted to 16-bits without sign extension" (R66). -/
theorem getLsbD_immOperand (imm : Byte) {k : Nat} (hk : k < 16) :
    (immOperand imm).getLsbD k = (decide (k < 8) && imm.getLsbD k) := by
  rw [immOperand, BitVec.getLsbD_setWidth, decide_eq_true hk, Bool.true_and]
  by_cases hlow : k < 8
  · rw [decide_eq_true hlow, Bool.true_and]
  · rw [decide_eq_false hlow, Bool.false_and, BitVec.getLsbD_of_ge imm k (not_lt.mp hlow)]

/-! ### Register results -/

/-- Settles O23: the results are the ALU's, of a literal whose high byte is zero. -/
theorem moveAndLogicalImmediates : Obligations.MoveAndLogicalImmediates := by
  refine ⟨rowIs_regImm (fun _ _ => rfl) Laws.RowFixedBits.movi fun _ _ => rfl,
    rowIs_regImm (fun _ _ => rfl) Laws.RowFixedBits.andi fun _ _ => rfl,
    rowIs_regImm (fun _ _ => rfl) Laws.RowFixedBits.ori fun _ _ => rfl,
    rowIs_regImm (fun _ _ => rfl) Laws.RowFixedBits.xori fun _ _ => rfl,
    fun n imm s => ?movi, fun n imm s => ?andi, fun n imm s => ?ori, fun n imm s => ?xori⟩
  case movi =>
    obtain ⟨t, hexec, hreg, hframe⟩ := exec_writesOnly (i := .movi n imm) (s := s) rfl
    exact ⟨t, hexec, hreg ▸ toNat_immOperand imm, hframe⟩
  case andi =>
    obtain ⟨t, hexec, hreg, hframe⟩ := exec_writesOnly (i := .andi n imm) (s := s) rfl
    refine ⟨t, hexec, hframe, fun k hk => ?_⟩
    rw [hreg, alu, BitVec.getLsbD_and, getLsbD_immOperand imm hk, Bool.and_left_comm, Bool.and_assoc]
  case ori =>
    obtain ⟨t, hexec, hreg, hframe⟩ := exec_writesOnly (i := .ori n imm) (s := s) rfl
    refine ⟨t, hexec, hframe, fun k hk => ?_⟩
    rw [hreg, alu, BitVec.getLsbD_or, getLsbD_immOperand imm hk]
  case xori =>
    obtain ⟨t, hexec, hreg, hframe⟩ := exec_writesOnly (i := .xori n imm) (s := s) rfl
    refine ⟨t, hexec, hframe, fun k hk => ?_⟩
    rw [hreg, alu, BitVec.getLsbD_xor, getLsbD_immOperand imm hk]

/-- Settles O24: the results are the ALU's sum and difference with the literal as a number 0 to 255. -/
theorem addAndSubImmediates : Obligations.AddAndSubImmediates := by
  refine ⟨rowIs_regImm (fun _ _ => rfl) Laws.RowFixedBits.addi fun _ _ => rfl,
    rowIs_regImm (fun _ _ => rfl) Laws.RowFixedBits.subi fun _ _ => rfl,
    fun n imm s => ?addi, fun n imm s => ?subi⟩
  case addi =>
    obtain ⟨t, hexec, hreg, hframe⟩ := exec_writesOnly (i := .addi n imm) (s := s) rfl
    exact ⟨t, hexec, by rw [hreg, toNat_alu_sum, toNat_immOperand], hframe⟩
  case subi =>
    obtain ⟨t, hexec, hreg, hframe⟩ := exec_writesOnly (i := .subi n imm) (s := s) rfl
    exact ⟨t, hexec, by rw [hreg, toNat_alu_diff, toNat_immOperand], hframe⟩

/-- Settles O25: the result is the ALU's left shift by the field. -/
theorem lslImmediate : Obligations.LslImmediate := by
  refine ⟨rowIs_regShift (fun _ _ => rfl) Laws.RowFixedBits.lsli fun _ _ => rfl,
    fun _ h hhigh => ⟨_, lsliWord_undefined h hhigh⟩, fun n sss s => ?_⟩
  obtain ⟨t, hexec, hreg, hframe⟩ := exec_writesOnly (i := .lsli n sss) (s := s) rfl
  exact ⟨t, hexec, by rw [hreg, toNat_alu_lsl, toNat_shiftOperand], hframe⟩

/-- Settles O26: the result is the ALU's right shift by the field, bit by bit and as a signed number. -/
theorem asrImmediate : Obligations.AsrImmediate := by
  refine ⟨rowIs_regShift (fun _ _ => rfl) Laws.RowFixedBits.asri fun _ _ => rfl, fun n sss s => ?_⟩
  obtain ⟨t, hexec, hreg, hframe⟩ := exec_writesOnly (i := .asri n sss) (s := s) rfl
  refine ⟨t, hexec, hframe, fun k hk => ?_, ?_⟩
  · rw [hreg, getLsbD_alu_asr _ _ hk, toNat_shiftOperand]
  · rw [hreg, toInt_alu_asr, toNat_shiftOperand]

/-! ### The spec's example words -/

/-- Settles O6: the words are fixed, so the decoder's answers are computed. -/
theorem specWordsDecode : Obligations.SpecWordsDecode := by
  unfold Obligations.SpecWordsDecode
  decide

end Sys2Proof.Machine
end

section
/-! The Type 2 instructions (43_type2_jump_branch.md R160 to R167): their words, where they continue, and what they
leave unchanged. -/

namespace Sys2Proof.Machine

open Sys2Proof

/-! ### The rows of `jump` and `bra` -/

theorem packRegs_abFields_outside (w : Word) (ty : BitVec 2) (c : BitVec 3) (low : BitVec 5) :
    packRegs ty c (aField w) (bField w) low &&& ~~~0xF81F#16 = w &&& ~~~0xF81F#16 := by
  refine BitVec.eq_of_getLsbD_eq fun k hk => ?_
  interval_cases k <;> simp [getElem_packRegs, aField, bField]

theorem packImm_immField_outside (w : Word) (ty : BitVec 2) (c op : BitVec 3) :
    packImm ty c (immField w) op &&& ~~~0xF807#16 = w &&& ~~~0xF807#16 := by
  refine BitVec.eq_of_getLsbD_eq fun k hk => ?_
  interval_cases k <;> simp [getElem_packImm, immField]

/-- The words of `bra` with any of bits [13:11] set are undefined (R78, R166). -/
theorem braWord_undefined {w : Word} (h : w &&& 0xC007#16 = 0x8007#16) (hreg : w.extractLsb' 11 3 ≠ 0#3) :
    decode w = .error .braFields := by
  obtain ⟨-, -, -, -, -, -, -, -, hbra, -⟩ := undefinedWordsExactly w
  exact hbra.mpr ⟨extractLsb'_eq_of_and_mask h rfl, extractLsb'_eq_of_and_mask h rfl, hreg⟩

/-! ### Jumps -/

theorem toNat_lowByte (v : Word) : (lowByte v).toNat = v.toNat % 256 := by
  rw [lowByte, BitVec.extractLsb'_toNat, Nat.shiftRight_zero]

/-- The next fetch address after a jump is made of its two registers, both read first (R160). -/
theorem fetchAddr_jump (b a : Reg) (s : State) :
    ((effectOf s (.jump b a)).apply s).fetchAddr = lowByte (s.reg b) ++ s.reg a := rfl

/-- Settles O27: the effect of `jump` is the transfer to its two registers, and no other effect writes `IB`. -/
theorem jumpGoesToBankAndAddress : Obligations.JumpGoesToBankAndAddress := by
  refine ⟨rowIs_of_fields (fun _ => Laws.RowFixedBits.jump ..)
      (packRegs_abFields_outside · 0b10#2 0b000#3 0b00000#5) fun _ => rfl,
    fun b a s => ⟨(effectOf s (.jump b a)).apply s, rfl, toNat_lowByte _, rfl, ?_,
      fun _ => rfl, rfl, rfl, rfl, rfl, fun _ => rfl⟩,
    fun i s t h hi => ?_⟩
  · rw [fetchAddr_jump, toNat_bank_append, toNat_lowByte]
  · obtain ⟨-, hib⟩ := pcIsSetInFourWays i s t h
    exact hib.trans (nextIb_eq_of_ne_jump s hi)

/-- Settles O54: `movib` left the bank in the low byte of its register, `movpc` its own address, and the later state
still holds both. -/
theorem jumpReturnsThroughSavedAddress : Obligations.JumpReturnsThroughSavedAddress := by
  intro b c s hbc
  refine ⟨_, _, rfl, rfl, fun v hb hc => ⟨(effectOf v (.jump b c)).apply v, rfl, ?_⟩⟩
  have hbank : lowByte (v.reg b) = s.ib := by
    rw [hb, reg_advance, reg_setReg_ne _ _ hbc]
    exact low_byte_movib b s
  have haddr : v.reg c = s.pc + 1#16 := by
    rw [hc, reg_advance, reg_setReg_same]
    rfl
  rw [fetchAddr_jump, hbank, haddr]
  rfl

/-! ### Branches -/

/-- An offset added to an address wraps modulo 2^16, whatever its sign (R161). -/
theorem toNat_add_ofInt (p : Word) (k : Int) : ((p + BitVec.ofInt 16 k).toNat : Int) = (p.toNat + k) % 65536 := by
  rw [BitVec.toNat_add, BitVec.toNat_ofInt]
  omega

theorem isZero_iff (v : Word) : isZero v = true ↔ v.toNat = 0 := by
  rw [isZero_eq, decide_eq_true_iff, BitVec.toNat_eq]
  rfl

theorem isNotZero_iff (v : Word) : isNotZero v = true ↔ ¬ v.toNat = 0 := by
  rw [← isZero_iff, isNotZero_eq, isZero_eq, Bool.not_eq_true', Bool.not_eq_true]

theorem isPlus_iff (v : Word) : isPlus v = true ↔ 0 ≤ v.toInt := by
  rw [isPlus_eq, Bool.not_eq_true', decide_eq_false_iff_not, not_lt]

theorem isMinus_iff (v : Word) : isMinus v = true ↔ v.toInt < 0 := by
  rw [isMinus_eq, decide_eq_true_iff]

/-- A branch completes, writes nothing but `PC`, and adds to its own address the offset where its condition holds
and 1 where it does not (R161). -/
theorem finishBranch_writesOnlyPc {cond : Bool} {p : Prop} [Decidable p] (off : Byte) (s : State)
    (h : cond = true ↔ p) :
    ∃ t, finishBranch cond off s = .next t ∧ WritesOnlyPc s t ∧
      (t.pc.toNat : Int) = (s.pc.toNat + (if p then off.toInt else 1)) % 65536 := by
  refine ⟨_, rfl, writesOnlyPc_branch .., ?_⟩
  by_cases hp : p
  · rw [if_pos hp, if_pos (h.mpr hp)]
    exact toNat_add_ofInt s.pc off.toInt
  · rw [if_neg hp, if_neg (h.not.mpr hp)]
    exact toNat_add_ofInt s.pc 1

/-- Settles O28: each is `finishBranch` on the condition of its register. -/
theorem conditionalBranches : Obligations.ConditionalBranches := by
  refine ⟨rowIs_regImm (fun _ _ => rfl) Laws.RowFixedBits.bz fun _ _ => rfl,
    rowIs_regImm (fun _ _ => rfl) Laws.RowFixedBits.bnz fun _ _ => rfl,
    rowIs_regImm (fun _ _ => rfl) Laws.RowFixedBits.bpl fun _ _ => rfl,
    rowIs_regImm (fun _ _ => rfl) Laws.RowFixedBits.bmi fun _ _ => rfl,
    fun r off s => ?bz, fun r off s => ?bnz, fun r off s => ?bpl, fun r off s => ?bmi⟩
  case bz => exact finishBranch_writesOnlyPc off s (isZero_iff (s.reg r))
  case bnz =>
    obtain ⟨t, hexec, hframe, hpc⟩ := finishBranch_writesOnlyPc off s (isNotZero_iff (s.reg r))
    exact ⟨t, hexec, hframe, by rw [hpc, ite_not]⟩
  case bpl => exact finishBranch_writesOnlyPc off s (isPlus_iff (s.reg r))
  case bmi => exact finishBranch_writesOnlyPc off s (isMinus_iff (s.reg r))

/-- Settles O29: it is `finishBranch` on a condition that always holds. -/
theorem unconditionalBranch : Obligations.UnconditionalBranch :=
  ⟨rowIs_of_fields (fun _ => Laws.RowFixedBits.bra ..) (packImm_immField_outside · 0b10#2 0b000#3 0b111#3)
      fun _ => rfl,
    fun _ h hreg => ⟨_, braWord_undefined h hreg⟩,
    fun off s => finishBranch_writesOnlyPc off s (p := True) (iff_of_true rfl trivial)⟩

end Sys2Proof.Machine
end

section
/-! The Type 3 instructions (44_type3_miscellaneous.md R180 to R183): their words, what they write, and what they
leave unchanged. -/

namespace Sys2Proof.Machine

open Sys2Proof

/-! ### The banks -/

theorem packRegs_bField_outside (w : Word) (ty : BitVec 2) (c a : BitVec 3) (low : BitVec 5) :
    packRegs ty c a (bField w) low &&& ~~~0xFF1F#16 = w &&& ~~~0xFF1F#16 := by
  refine BitVec.eq_of_getLsbD_eq fun k hk => ?_
  interval_cases k <;> simp [getElem_packRegs, bField]

/-- An instruction whose effect is a write of `DB` makes no data access, so it completes. -/
theorem exec_of_effectOf_setDb {i : Instr} {s : State} {bank : Byte} (h : effectOf s i = .setDb bank) :
    exec i s = .next (s.setDb bank).advance := by
  refine exec_eq_next_iff.mpr ⟨?_, by rw [h]; rfl⟩
  rw [dataAdmitted, ← effectOf_access, h]
  rfl

/-- An instruction whose effect is a write of `DB` completes and leaves the rest as it was; the next data address is
in the new bank (R28, R42). -/
theorem exec_writesOnlyDb {i : Instr} {s : State} {bank : Byte} (h : effectOf s i = .setDb bank) :
    ∃ t, exec i s = .next t ∧ t.db = bank ∧ WritesOnlyDb s t ∧
      ∀ ea, (t.dataAddr ea).toNat = bank.toNat * 65536 + ea.toNat :=
  ⟨_, exec_of_effectOf_setDb h, rfl, writesOnlyDb_setDb_advance .., toNat_dataAddr _⟩

/-- Settles O30: both effects are a write of `DB`, with the low byte of the operand. -/
theorem bankInstructionsSetDb : Obligations.BankInstructionsSetDb := by
  refine ⟨rowIs_of_fields (fun _ => Laws.RowFixedBits.banki ..)
      (packImm_immField_outside · 0b11#2 0b000#3 0b001#3) fun _ => rfl,
    rowIs_of_fields (fun _ => Laws.RowFixedBits.bank ..)
      (packRegs_bField_outside · 0b11#2 0b000#3 0b000#3 0b00010#5) fun _ => rfl,
    fun imm s => ?banki, fun b s => ?bank⟩
  case banki => exact exec_writesOnlyDb (congrArg Effect.setDb (lowByte_immOperand imm))
  case bank =>
    obtain ⟨t, hexec, hdb, hframe, haddr⟩ := exec_writesOnlyDb (i := .bank b) (s := s) rfl
    rw [← toNat_lowByte]
    exact ⟨t, hexec, congrArg _ hdb, hframe, haddr⟩

/-! ### The exchange of bytes -/

/-- Settles O31: the effect of `swhl` is the register result SB of its source, SB is its own inverse, and the other
Type 3 instructions have no destination. -/
theorem swhlSwapsBytes : Obligations.SwhlSwapsBytes := by
  refine ⟨rowIs_of_fields (fun _ => Laws.RowFixedBits.swhl ..)
      (packRegs_cbFields_outside · 0b11#2 0b000#3 0b00011#5) fun _ => rfl,
    fun d b s => ?swap, fun d s => ?twice, fun i s t hi h r => ?others⟩
  case swap =>
    obtain ⟨t, hexec, hreg, hframe⟩ := exec_writesOnly (i := .swhl d b) (s := s) rfl
    exact ⟨t, hexec, hframe, hreg ▸ toNat_swapBytes _⟩
  case twice =>
    obtain ⟨t, hexec, hreg, -⟩ := exec_writesOnly (i := .swhl d d) (s := s) rfl
    obtain ⟨u, hexec', hreg', -⟩ := exec_writesOnly (i := .swhl d d) (s := t) rfl
    exact ⟨t, u, hexec, hexec', by rw [hreg', hreg, swapBytes_swapBytes]⟩
  case others =>
    refine onlyTheDestinationIsWritten i s t r h ?_
    obtain ⟨imm, rfl⟩ | ⟨b, rfl⟩ | rfl := hi <;> exact nofun

/-! ### The halt -/

/-- Settles O32: the meaning of `halt` sets the latch, and a halted CPU makes no step. -/
theorem haltSetsTheLatch : Obligations.HaltSetsTheLatch := by
  refine ⟨fun w => ?_, fun s => ⟨_, rfl, rfl, haltedMakesNoStep _ rfl⟩⟩
  have hmask : w &&& 0xFFFF#16 = w := BitVec.and_allOnes
  rw [hmask, decode_eq_halt_iff]

end Sys2Proof.Machine
end

section
/-! Runs (44_type3_miscellaneous.md R184): a run in two parts, what a run that ends did at its last step, and what the
runs of other lengths from the same state answer. -/

namespace Sys2Proof.Machine

open Sys2Proof

/-- A run of `n` steps from the state an answer gives; a fault or a refusal stays. -/
def thenRun (n : Nat) : Answer → Answer
  | .next t => runFor n t
  | .fault f => .fault f
  | .refused r => .refused r

theorem runFor_succ (n : Nat) (s : State) : runFor (n + 1) s = thenRun n (step s) := rfl

theorem runFor_one (s : State) : runFor 1 s = step s := by
  rw [runFor_succ]
  cases step s <;> rfl

/-- A run is a run of its first steps and a run of the others from where those lead. -/
theorem runFor_add (n k : Nat) (s : State) : runFor (n + k) s = thenRun k (runFor n s) := by
  induction n generalizing s with
  | zero => rw [Nat.zero_add]; rfl
  | succ n ih =>
    rw [Nat.add_right_comm, runFor_succ, runFor_succ]
    cases step s with
    | next t => exact ih t
    | fault | refused => rfl

theorem thenRun_eq_next_iff {n : Nat} {r : Answer} {t : State} :
    thenRun n r = .next t ↔ ∃ u, r = .next u ∧ runFor n u = .next t := by
  cases r <;> simp [thenRun]

/-- A halted CPU runs for no step at all (R31, R183). -/
theorem runFor_of_halted {s : State} (k : Nat) (h : s.halted = true) : runFor (k + 1) s = .fault .halted := by
  rw [runFor_succ, haltedMakesNoStep s h]
  rfl

/-- A step that leaves the CPU halted executed `halt`: the fetched word is 0xC007, and nothing but the latch
changed (R31, R183). -/
theorem step_to_halted {s t : State} (h : step s = .next t) (ht : t.halted = true) :
    s.mem.read s.fetchAddr = 0xC007#16 ∧ t = { s with halted := true } := by
  have hword : s.mem.read s.fetchAddr = 0xC007#16 := (onlyHaltSetsTheLatch.2 s t h).mp ht
  obtain ⟨hrun, hadm, -⟩ := step_next_cases h
  have hstep : step s = .next s.halt := step_decoded hrun hadm ((decode_eq_halt_iff _).mpr hword)
  rw [h] at hstep
  cases hstep
  exact ⟨hword, rfl⟩

/-- Settles O58: the last step of a run starts in a running state, and it sets the latch. -/
theorem runEndsAtHalt : Obligations.RunEndsAtHalt := by
  rintro n s t hs ⟨hrun, ht⟩
  cases n with
  | zero =>
    cases hrun
    rw [ht] at hs
    cases hs
  | succ k =>
    rw [runFor_add, thenRun_eq_next_iff] at hrun
    obtain ⟨u, hu, hlast⟩ := hrun
    rw [runFor_one] at hlast
    obtain ⟨hrunning, -⟩ := step_next_cases hlast
    exact ⟨k, u, rfl, hu, hrunning, step_to_halted hlast ht⟩

section

variable {m n : Nat} {s t : State}

/-- No run from a state is longer than one that ends. -/
theorem RunEnds.runFor_of_lt (h : RunEnds s m t) (hmn : m < n) : runFor n s = .fault .halted := by
  obtain ⟨hrun, ht⟩ := h
  obtain ⟨k, rfl⟩ := Nat.exists_eq_add_of_lt hmn
  rw [Nat.add_assoc, runFor_add, hrun]
  exact runFor_of_halted k ht

/-- The shorter runs from a state whose run ends reach a next state. -/
theorem RunEnds.runFor_of_le (h : RunEnds s m t) (hnm : n ≤ m) : ∃ u, runFor n s = .next u := by
  obtain ⟨hrun, -⟩ := h
  obtain ⟨k, rfl⟩ := Nat.exists_eq_add_of_le hnm
  rw [runFor_add, thenRun_eq_next_iff] at hrun
  obtain ⟨u, hu, -⟩ := hrun
  exact ⟨u, hu⟩

/-- Of two runs from a state that end, the second is not the longer. -/
theorem RunEnds.length_le {u : State} (h : RunEnds s n t) (h' : RunEnds s m u) : m ≤ n := by
  by_contra hlt
  have hfault := h.runFor_of_lt (not_le.mp hlt)
  rw [h'.1] at hfault
  cases hfault

end

/-- Settles O59: neither of two runs that end is the longer, and a run of one length has one answer. -/
theorem runHasOneEnd : Obligations.RunHasOneEnd := by
  intro n m s t u hn hm
  obtain rfl : n = m := le_antisymm (hm.length_le hn) (hn.length_le hm)
  obtain ⟨hrun, -⟩ := hn
  rw [hm.1] at hrun
  cases hrun
  exact ⟨rfl, rfl⟩

/-- Settles O60: where a run ends, the runs of other lengths reach a next state or the halted CPU, and no refusal. -/
theorem refusedRunNeverEnds : Obligations.RefusedRunNeverEnds := by
  rintro n m s t ⟨r, hrefused⟩ hend
  obtain hle | hlt := le_or_gt n m
  · obtain ⟨u, hnext⟩ := hend.runFor_of_le hle
    rw [hrefused] at hnext
    cases hnext
  · rw [hend.runFor_of_lt hlt] at hrefused
    cases hrefused

end Sys2Proof.Machine
end

section
/-! What a step can do (60_exceptions.md R200): the five outcomes on every machine, and the three that are left under
the spec's default MemMap. -/

namespace Sys2Proof.Machine

open Sys2Proof

/-- The data access that an instruction makes where MemMap does not admit it (R49). -/
theorem exists_dataAccess_notAdmitted {s : State} {i : Instr} (h : dataAdmitted s i = false) :
    ∃ k a, dataAccess s i = some (k, a) ∧ admits s.platform k a = false := by
  unfold dataAdmitted at h
  split at h
  case h_1 k a hacc => exact ⟨k, a, hacc, h⟩
  case h_2 => cases h

/-- Settles O10: a step looks at the latch, then at the fetch, the word and the data access, and ends at the first
that stops it; the default MemMap admits every access, so two of the five outcomes cannot occur. -/
theorem stepOutcomes : Obligations.StepOutcomes := by
  refine (and_iff_left_of_imp fun hfive s hdefault => ?default).mpr fun s => ?five
  case five =>
    cases hhalted : s.halted with
    | true => exact .inl ⟨rfl, haltedMakesNoStep s hhalted⟩
    | false =>
      cases hfetch : admits s.platform .fetch s.fetchAddr with
      | false => exact .inr (.inl ⟨rfl, rfl, step_fetch_notAdmitted hhalted hfetch⟩)
      | true =>
        cases hdec : decode (s.mem.read s.fetchAddr) with
        | error u => exact .inr (.inr (.inl ⟨rfl, rfl, u, rfl, step_undefined hhalted hfetch hdec⟩))
        | ok i =>
          have hstep : step s = exec i s := step_decoded hhalted hfetch hdec
          cases hdata : dataAdmitted s i with
          | false =>
            obtain ⟨k, a, hacc, hadm⟩ := exists_dataAccess_notAdmitted hdata
            exact .inr (.inr (.inr (.inl ⟨rfl, rfl, i, k, a, rfl, hacc, hadm,
              hstep.trans (exec_notAdmitted hacc hadm)⟩)))
          | true =>
            exact .inr (.inr (.inr (.inr ⟨rfl, rfl, i, _, rfl, hdata,
              hstep.trans (exec_eq_next_iff.mpr ⟨hdata, rfl⟩)⟩)))
  case default =>
    have hall (k : Access) (a : Addr) : admits s.platform k a ≠ false := by
      obtain ⟨-, -, hadmits⟩ := memMapAdmits
      simp [hadmits s.platform k a hdefault]
    obtain hhalted | ⟨-, hfetch, -⟩ | ⟨hrun, -, hrefused⟩ | ⟨-, -, _, k, a, -, -, hdata, -⟩ |
      ⟨hrun, -, i, t, hdec, -, hnext⟩ := hfive s
    · exact .inl hhalted
    · exact absurd hfetch (hall _ _)
    · exact .inr (.inr ⟨hrun, hrefused⟩)
    · exact absurd hdata (hall k a)
    · exact .inr (.inl ⟨hrun, ⟨i, hdec⟩, t, hnext⟩)

end Sys2Proof.Machine
end

section
/-! Reset (70_reset_and_hazards.md R220 to R222): where a reset state makes its first fetch, and what the host's two
actions keep. -/

namespace Sys2Proof.Machine

open Sys2Proof

/-- The bank is the high part of the fetch address as a number, as it is of a data address (R23, R42). -/
theorem toNat_fetchAddr (s : State) : s.fetchAddr.toNat = s.ib.toNat * 65536 + s.pc.toNat :=
  toNat_bank_append s.ib s.pc

/-- The host's reset loads nothing: every word of memory reads as before (R221). -/
theorem sameMemory_hostReset (s : State) (regs : Vector Word 8) (db : Byte) : SameMemory s (s.hostReset regs db) := by
  intro a
  rw [mem_hostReset]

/-- Settles O45: nothing is listed after reset, the host's reset keeps the list, and its load is one write. -/
theorem resetHasInvariant : Obligations.ResetHasInvariant := by
  refine ⟨wf_reset, fun s regs db hs => ?reset, fun s a v hs => ?load⟩
  case reset => rwa [State.Inv, mem_hostReset]
  case load =>
    rw [State.Inv, mem_hostStore]
    exact wf_write a v hs

/-- Settles O56: the reset state is given field by field, and its first fetch is at the bank and address it holds. -/
theorem resetState : Obligations.ResetState := by
  refine ⟨fun p regs db mem => ⟨halted_resetOn .., mem_resetOn .., pc_resetOn .., ib_resetOn .., platform_resetOn ..,
    ?fetch⟩, ⟨_, _, rfl⟩, ?defaults⟩
  case fetch => rw [toNat_fetchAddr, ib_resetOn, pc_resetOn]
  case defaults => decide

/-- Settles O57: the host's reset clears the latch, so the first step is that of a running CPU, and the word it
fetches is the one memory held before the reset. -/
theorem hostResetRestarts : Obligations.HostResetRestarts := by
  intro s regs db
  have hrun : (s.hostReset regs db).halted = false := halted_hostReset s regs db
  have hmem : SameMemory s (s.hostReset regs db) := sameMemory_hostReset s regs db
  refine ⟨hrun, hmem, platform_hostReset s regs db, ?fetch, fun i hadm hdec => ?step⟩
  case fetch => rw [toNat_fetchAddr, ib_hostReset, pc_hostReset]
  case step =>
    rw [← hmem] at hdec
    exact step_decoded hrun hadm hdec

end Sys2Proof.Machine
end

section
/-! The decoder, the encoder and the opcode table agree (30_encoding.md sections 7 and 8): the round trips, and the
rows that a word fits. -/

namespace Sys2Proof.Machine

open Sys2Proof Sys2Proof.Laws

/-- Settles O1: it is what the decoder answers for a packed word, case by case over the instruction. -/
theorem decodeEncodeRoundTrip : Obligations.DecodeEncodeRoundTrip :=
  fun _ => decode_encode

/-- Settles O2: it is what the decoder's answer packs to, case by case over the decoder's branches. -/
theorem encodeDecodeRoundTrip : Obligations.EncodeDecodeRoundTrip :=
  fun _ _ => encode_of_decode

/-! ### From the answer to the row -/

/-- The word of every instruction is of the instruction's row. -/
theorem encode_fits_rowOf : ∀ i : Instr, RowFixedBits.Statement i
  | .nop => RowFixedBits.nop
  | .mov .. => RowFixedBits.mov ..
  | .add .. => RowFixedBits.add ..
  | .sub .. => RowFixedBits.sub ..
  | .and .. => RowFixedBits.and ..
  | .or .. => RowFixedBits.or ..
  | .xor .. => RowFixedBits.xor ..
  | .lsl .. => RowFixedBits.lsl ..
  | .asr .. => RowFixedBits.asr ..
  | .movpc .. => RowFixedBits.movpc ..
  | .movib .. => RowFixedBits.movib ..
  | .ld .. => RowFixedBits.ld ..
  | .ldadd .. => RowFixedBits.ldadd ..
  | .ldsub .. => RowFixedBits.ldsub ..
  | .st .. => RowFixedBits.st ..
  | .stadd .. => RowFixedBits.stadd ..
  | .stsub .. => RowFixedBits.stsub ..
  | .movi .. => RowFixedBits.movi ..
  | .addi .. => RowFixedBits.addi ..
  | .subi .. => RowFixedBits.subi ..
  | .andi .. => RowFixedBits.andi ..
  | .ori .. => RowFixedBits.ori ..
  | .xori .. => RowFixedBits.xori ..
  | .lsli .. => RowFixedBits.lsli ..
  | .asri .. => RowFixedBits.asri ..
  | .jump .. => RowFixedBits.jump ..
  | .bz .. => RowFixedBits.bz ..
  | .bnz .. => RowFixedBits.bnz ..
  | .bpl .. => RowFixedBits.bpl ..
  | .bmi .. => RowFixedBits.bmi ..
  | .bra .. => RowFixedBits.bra ..
  | .banki .. => RowFixedBits.banki ..
  | .bank .. => RowFixedBits.bank ..
  | .swhl .. => RowFixedBits.swhl ..
  | .halt => RowFixedBits.halt

theorem rowOf_mem_opcodeRows (i : Instr) : rowOf i ∈ opcodeRows := by
  fun_cases rowOf i <;> decide

/-- A word that the decoder accepts is of the row of its answer. -/
theorem fits_rowOf_of_decode {w : Word} {i : Instr} (h : decode w = .ok i) :
    w &&& (rowOf i).mask = (rowOf i).pattern := by
  obtain ⟨rfl, -⟩ := encode_of_decode h
  exact encode_fits_rowOf i

/-! ### From the row to the answer -/

/-- The words of the row are read as instructions of the row, but for 0x0000, which is of two rows (R76). -/
def ReadAsOwnRow (r : Row) : Prop :=
  ∀ w : Word, w &&& r.mask = r.pattern → w ≠ 0x0000#16 → ∃ i, decode w = .ok i ∧ rowOf i = r

/-- Where the words of a row are known, what they are read as is of the row; for a row of the table by definition. -/
theorem RowIs.readAsOwnRow {mask pattern : Word} {instr : Word → Instr} (h : RowIs mask pattern instr)
    (hrow : ∀ w, rowOf (instr w) = ⟨mask, pattern⟩ := by exact fun _ => rfl) :
    ReadAsOwnRow ⟨mask, pattern⟩ :=
  fun w hfits _ => ⟨instr w, (h w).mp hfits, hrow w⟩

theorem readAsOwnRow_nop : ReadAsOwnRow ⟨0xFFFF, 0x0000⟩ :=
  fun _ hfits hzero => absurd (BitVec.and_allOnes.symm.trans hfits) hzero

theorem readAsOwnRow_mov : ReadAsOwnRow ⟨0xC71F, 0x0000⟩ :=
  fun w hfits hzero => ⟨_, (movWord_iff w).mp ⟨hfits, hzero⟩, rfl⟩

theorem readAsOwnRow_of_mem_type0Rows : ∀ r ∈ type0Rows, ReadAsOwnRow r := by
  obtain ⟨hadd, hsub, -⟩ := addAndSub
  obtain ⟨hand, hor, hxor, -⟩ := andOrXor
  obtain ⟨hlsl, -⟩ := lslByRegister
  obtain ⟨hasr, -⟩ := asrByRegister
  obtain ⟨hmovpc, -⟩ := movpcYieldsOwnAddress
  obtain ⟨hmovib, -⟩ := movibYieldsBank
  obtain ⟨hld, -⟩ := loadIndirect
  obtain ⟨hldadd, hldsub, -⟩ := loadIndexed
  obtain ⟨hst, -⟩ := storeIndirect
  obtain ⟨hstadd, hstsub, -⟩ := storeIndexed
  simp only [type0Rows, List.forall_mem_cons]
  exact ⟨readAsOwnRow_nop, readAsOwnRow_mov, hadd.readAsOwnRow, hsub.readAsOwnRow, hand.readAsOwnRow,
    hor.readAsOwnRow, hxor.readAsOwnRow, hlsl.readAsOwnRow, hasr.readAsOwnRow, hmovpc.readAsOwnRow,
    hmovib.readAsOwnRow, hld.readAsOwnRow, hldadd.readAsOwnRow, hldsub.readAsOwnRow, hst.readAsOwnRow,
    hstadd.readAsOwnRow, hstsub.readAsOwnRow, nofun⟩

theorem readAsOwnRow_of_mem_type1Rows : ∀ r ∈ type1Rows, ReadAsOwnRow r := by
  obtain ⟨hmovi, handi, hori, hxori, -⟩ := moveAndLogicalImmediates
  obtain ⟨haddi, hsubi, -⟩ := addAndSubImmediates
  obtain ⟨hlsli, -⟩ := lslImmediate
  obtain ⟨hasri, -⟩ := asrImmediate
  simp only [type1Rows, List.forall_mem_cons]
  exact ⟨hmovi.readAsOwnRow, haddi.readAsOwnRow, hsubi.readAsOwnRow, handi.readAsOwnRow, hori.readAsOwnRow,
    hxori.readAsOwnRow, hlsli.readAsOwnRow, hasri.readAsOwnRow, nofun⟩

theorem readAsOwnRow_of_mem_type2Rows : ∀ r ∈ type2Rows, ReadAsOwnRow r := by
  obtain ⟨hjump, -⟩ := jumpGoesToBankAndAddress
  obtain ⟨hbz, hbnz, hbpl, hbmi, -⟩ := conditionalBranches
  obtain ⟨hbra, -⟩ := unconditionalBranch
  simp only [type2Rows, List.forall_mem_cons]
  exact ⟨hjump.readAsOwnRow, hbz.readAsOwnRow, hbnz.readAsOwnRow, hbpl.readAsOwnRow, hbmi.readAsOwnRow,
    hbra.readAsOwnRow, nofun⟩

theorem readAsOwnRow_of_mem_type3Rows : ∀ r ∈ type3Rows, ReadAsOwnRow r := by
  obtain ⟨hbanki, hbank, -⟩ := bankInstructionsSetDb
  obtain ⟨hswhl, -⟩ := swhlSwapsBytes
  obtain ⟨hhalt, -⟩ := haltSetsTheLatch
  simp only [type3Rows, List.forall_mem_cons]
  exact ⟨hbanki.readAsOwnRow, hbank.readAsOwnRow, hswhl.readAsOwnRow, hhalt.readAsOwnRow, nofun⟩

/-- What a row's word is read as, for the whole table. -/
theorem readAsOwnRow_of_mem_opcodeRows {r : Row} (h : r ∈ opcodeRows) : ReadAsOwnRow r := by
  simp only [opcodeRows, List.mem_append] at h
  obtain ((h0 | h1) | h2) | h3 := h
  · exact readAsOwnRow_of_mem_type0Rows r h0
  · exact readAsOwnRow_of_mem_type1Rows r h1
  · exact readAsOwnRow_of_mem_type2Rows r h2
  · exact readAsOwnRow_of_mem_type3Rows r h3

/-- Settles O3: an accepted word is of the row of its answer, and a row's word is read as an instruction of the row
or is the word of `nop`. -/
theorem definedIffSomeRowFits : Obligations.DefinedIffSomeRowFits := by
  refine fun w => ⟨fun ⟨i, hdec⟩ => ⟨rowOf i, rowOf_mem_opcodeRows i, fits_rowOf_of_decode hdec⟩,
    fun ⟨r, hr, hfits⟩ => ?_⟩
  by_cases hzero : w = 0x0000#16
  · exact ⟨.nop, (nopWord_iff w).mp hzero⟩
  · obtain ⟨i, hdec, -⟩ := readAsOwnRow_of_mem_opcodeRows hr w hfits hzero
    exact ⟨i, hdec⟩

/-- Settles O4: a word other than 0x0000 is read as one instruction, and every row that it fits is the row of that
instruction. -/
theorem noWordFitsTwoRows : Obligations.NoWordFitsTwoRows := by
  refine fun w r q hr hq hfitsr hfitsq => or_iff_not_imp_right.mpr fun hzero => ?_
  obtain ⟨i, hdec, rfl⟩ := readAsOwnRow_of_mem_opcodeRows hr w hfitsr hzero
  obtain ⟨j, hdec', rfl⟩ := readAsOwnRow_of_mem_opcodeRows hq w hfitsq hzero
  have hsame : i = j := Except.ok.inj (hdec.symm.trans hdec')
  rw [hsame]

end Sys2Proof.Machine
end
